-- ==== Sys2Proof/Word.lean ====
section
/-! DEFINITION. The word types of LE (00_scope.md rule R8): bytes, 16-bit values, byte sequences. -/

namespace Sys2Proof

/-- `u8` (R8). -/
abbrev Byte := BitVec 8

/-- `u16` (R8). -/
abbrev Word16 := BitVec 16

/-- A byte sequence: a stream segment, a buffer, a body or a payload (R8, R60). -/
abbrev Bytes := List Byte

end Sys2Proof
end

