-- ==== Sys2Proof/Config.lean ====
section
/-! DEFINITION. The implementation parameters of LE (00_scope.md rules R6, R7; 10_state.md rule R45). -/

namespace Sys2Proof

/-- `SLP_SIG`, the frame start marker (R6, R91). -/
def slpSig : Bytes := [0xBE, 0xEF, 0xED]

/-- `SLP_HDR_LEN`, the bytes of a frame before its body (R6, R90). -/
def slpHdrLen : Nat := 10

/-- `PADP_HDR_LEN`, the bytes of fragment header in an SLP body (R6, R100). -/
def padpHdrLen : Nat := 3

/-- The configuration values (R45). They are static: no operation writes them. -/
structure Config where
  /-- `SLP_MAX_BODY`: the largest body accepted and sent. -/
  slpMaxBody : Nat
  /-- `SLP_TYPE_PADP`: the `packetType` that marks a PADP fragment. -/
  slpTypePadp : Byte
  /-- `SLP_SUBS`: the sockets that have a subscriber; only membership matters. -/
  slpSubs : List Byte
  /-- `PADP_LOCAL_SOCKET`: the socket of this end of the channel. -/
  padpLocalSocket : Byte
  /-- `PADP_REMOTE_SOCKET`: the socket of the other end. -/
  padpRemoteSocket : Byte
  /-- `PADP_FRAG_SIZE`: payload bytes in every fragment but the last. -/
  padpFragSize : Nat
  /-- `PADP_MAX_PAYLOAD`: capacity of the send and reassembly buffers. -/
  padpMaxPayload : Nat
  /-- `PADP_ACK_TIMEOUT`: ticks to wait for an ack before a retransmission. -/
  padpAckTimeout : Nat
  /-- `PADP_MAX_RETRIES`: retransmissions of the last fragment before a send fails. -/
  padpMaxRetries : Nat
  deriving DecidableEq, Repr

/-- The constraints a configuration must meet; a model refuses one that breaks any (R7). -/
abbrev Config.Valid (c : Config) : Prop :=
  1 ≤ c.padpFragSize ∧
  padpHdrLen + c.padpFragSize ≤ c.slpMaxBody ∧
  c.slpMaxBody ≤ 65535 ∧
  c.padpMaxPayload ≤ 65535 ∧
  1 ≤ c.padpAckTimeout ∧
  c.padpLocalSocket ∈ c.slpSubs

/-- The configuration of `State.reset`: the defaults of R6, and where R6 gives none (`SLP_MAX_BODY`, the
sockets, the timeout, the retry bound) a value its vectors use.
DESIGN CHOICE (log 2), unsafe if a claim leans on one of them: no statement does. -/
def Config.default : Config where
  slpMaxBody := 1027
  slpTypePadp := 0x02
  slpSubs := [0x03]
  padpLocalSocket := 0x03
  padpRemoteSocket := 0x03
  padpFragSize := 1024
  padpMaxPayload := 65535
  padpAckTimeout := 2
  padpMaxRetries := 1

end Sys2Proof
end

