-- ==== Sys2Proof/Machine/Crc16.lean ====
section
/-! DEFINITION. The CRC-16 function of LE (40_crc16.md rules R130, R131, R136). -/

namespace Sys2Proof.Machine

/-- One turn of the shift register of R130: shift left, XOR the polynomial 0x1021 when bit 15 falls out. -/
def crc16Shift (c : Word16) : Word16 :=
  if c.getLsbD 15 then (c <<< 1) ^^^ 0x1021#16 else c <<< 1

/-- `crc16_update(c, b)` (R130): the byte meets the top 8 bits, then eight turns. -/
def crc16Update (c : Word16) (b : Byte) : Word16 :=
  let c := c ^^^ (b.setWidth 16 <<< 8)
  crc16Shift (crc16Shift (crc16Shift (crc16Shift
    (crc16Shift (crc16Shift (crc16Shift (crc16Shift c)))))))

/-- `crc16(s)` (R131): the left fold of `crc16_update` from the seed 0x0000, no final XOR. -/
def crc16 (s : Bytes) : Word16 := s.foldl crc16Update 0#16

/-- `crc_accept(m, t)` (R136). -/
def crcAccept (m : Bytes) (t : Word16) : Bool := crc16 m == t

end Sys2Proof.Machine
end

