-- ==== Sys2Proof/Syntax.lean ====
section
/-! DEFINITION. The instructions of LE: one constructor per row of spec/opcode_table.json (30_encoding.md rules
R106, R107, R108 for the operation records, R90 for the SLP frame, R100 and R102 for the PADP fragments), and
the packet record of 30_encoding.md rule R97. -/

namespace Sys2Proof

/-- The logical content of an SLP frame, what `slp_encode` takes and `slp_decode` gives (R97); `bodySize` and both
checksums are computed from it. -/
structure Packet where
  dst : Byte
  src : Byte
  type : Byte
  txid : Byte
  body : Bytes
  deriving DecidableEq, Repr

/-- The rows of the opcode table. The record formats of R106 carry their length fields implicitly: `n` is the length
of the body or payload. In the fragments `rsv` is `flags[4:0]`, reserved and ignored on receipt (R104), `size` the
16-bit size field (R101) and `txid` the transaction id of the enclosing frame. -/
inductive Instr where
  /-- `NOP` (R254). -/
  | nop
  /-- `CRC.CLR` (R132). -/
  | crcClr
  /-- `CRC.UPD b` (R133). -/
  | crcUpd (b : Byte)
  /-- `CRC.RD` (R134). -/
  | crcRd
  /-- `CRC.CHK v` (R135). -/
  | crcChk (v : Word16)
  /-- `SLP.TX dst, src, type, txid, body` (R150). -/
  | slpTx (p : Packet)
  /-- `PADP.SEND txid, opts, payload`; `opts` bit 0 is `ackreq`, the rest must be 0 (R190, R106). -/
  | padpSend (txid opts : Byte) (payload : Bytes)
  /-- `STATUS` (R255). -/
  | status
  /-- `RX_BYTE b` (R165). -/
  | rxByte (b : Byte)
  /-- `TICK` (R197). -/
  | tick
  /-- `PADP.TXSTEP` (R193). -/
  | padpTxstep
  /-- `CANCEL` (R251). -/
  | cancel
  /-- `CLOSE` (R252). -/
  | close
  /-- `RESET` (R250). -/
  | reset
  /-- The row `(reserved)`: a record that starts with a code not in R107 (R108). -/
  | reserved (code : Byte)
  /-- `SLP.FRAME`: a frame on the receive stream (R90). -/
  | slpFrame (p : Packet)
  /-- `PADP.DATA.FIRST` (R223). -/
  | padpDataFirst (txid : Byte) (rsv : BitVec 5) (size : Word16) (data : Bytes)
  /-- `PADP.DATA.ONLY`; `ack` is the acknowledgement-required bit (R224). -/
  | padpDataOnly (txid : Byte) (ack : Bool) (rsv : BitVec 5) (size : Word16) (data : Bytes)
  /-- `PADP.DATA.MID` (R225). -/
  | padpDataMid (txid : Byte) (rsv : BitVec 5) (size : Word16) (data : Bytes)
  /-- `PADP.DATA.LAST`; `ack` is the acknowledgement-required bit (R226). -/
  | padpDataLast (txid : Byte) (ack : Bool) (rsv : BitVec 5) (size : Word16) (data : Bytes)
  /-- `PADP.ACK` (R196). -/
  | padpAck (txid : Byte) (rsv : BitVec 5) (size : Word16) (data : Bytes)
  /-- `PADP.ILLEGAL` (R229). -/
  | padpIllegal (txid : Byte) (rsv : BitVec 5) (size : Word16) (data : Bytes)
  deriving DecidableEq, Repr

end Sys2Proof
end

