-- ==== Sys2Proof/Machine/Operands.lean ====
section
/-! DEFINITION. Every form in which LE reads or writes a field: the byte order (00_scope.md R8, 20_memory.md R62, R64),
the operation codes and record formats (30_encoding.md R106, R107), the SLP frame (R90 to R97) and the PADP fragment
header (R100 to R104). -/

namespace Sys2Proof.Machine

/-- `be16(v)`: the high byte first (R8, R62). -/
def be16 (v : Word16) : Bytes := [v.extractLsb' 8 8, v.extractLsb' 0 8]

/-- The 16-bit value of two stream bytes, the first the high one (R64). -/
def word16 (hi lo : Byte) : Word16 := hi ++ lo

/-- `get16(s, i)` (R8, R64); a byte past the end reads as 0, which no guarded access reaches (R69). -/
def get16 (s : Bytes) (i : Nat) : Word16 := word16 (s.getD i 0) (s.getD (i + 1) 0)

/-- The sum of bytes modulo 256 (R94). -/
def byteSum (s : Bytes) : Byte := s.foldl (· + ·) 0

/-! ### Operation codes and record formats -/

/-- The five record formats (R106). -/
inductive Format where
  | h0
  | h1
  | h2
  | hs
  | hp
  deriving DecidableEq, Repr

/-- The fourteen operations (R107). -/
inductive Op where
  | nop
  | crcClr
  | crcUpd
  | crcRd
  | crcChk
  | slpTx
  | padpSend
  | status
  | rxByte
  | tick
  | padpTxstep
  | cancel
  | close
  | reset
  deriving DecidableEq, Repr

/-- A row of the table of operation codes. -/
structure OpRow where
  code : Byte
  op : Op
  format : Format
  deriving DecidableEq, Repr

/-- The table of operation codes, row by row (R107). -/
def opTable : List OpRow :=
  [⟨0x00, .nop, .h0⟩, ⟨0x01, .crcClr, .h0⟩, ⟨0x02, .crcUpd, .h1⟩, ⟨0x03, .crcRd, .h0⟩, ⟨0x04, .crcChk, .h2⟩,
   ⟨0x10, .slpTx, .hs⟩, ⟨0x20, .padpSend, .hp⟩, ⟨0x30, .status, .h0⟩, ⟨0x40, .rxByte, .h1⟩, ⟨0x41, .tick, .h0⟩,
   ⟨0x42, .padpTxstep, .h0⟩, ⟨0xF0, .cancel, .h0⟩, ⟨0xF1, .close, .h0⟩, ⟨0xFF, .reset, .h0⟩]

/-- The row of an operation code; none for a reserved code (R108). -/
def opOfCode (code : Byte) : Option OpRow := opTable.find? (fun r => r.code == code)

/-- `ackreq`, bit 0 of the `opts` byte of `PADP.SEND` (R106). -/
def optsAckreq (opts : Byte) : Bool := opts.getLsbD 0

/-- `opts[7:1] != 0` (R106, R190). -/
def optsReserved (opts : Byte) : Bool := opts.extractLsb' 1 7 != 0

/-! ### The SLP frame -/

/-- The ten header bytes of a frame: signature, addresses, type, body size, transaction id, header sum (R90 to R94). -/
def slpHeader (p : Packet) : Bytes :=
  let h9 := slpSig ++ [p.dst, p.src, p.type] ++ be16 (BitVec.ofNat 16 p.body.length) ++ [p.txid]
  h9 ++ [byteSum h9]

/-- `slp_encode` (R97): header, body, and the CRC-16 of both as trailer (R96). -/
def slpEncode (p : Packet) : Bytes :=
  let f := slpHeader p ++ p.body
  f ++ be16 (crc16 f)

/-- `slp_decode` (R97), on valid frames the inverse of `slp_encode`. -/
def slpDecode (f : Bytes) : Packet where
  dst := f.getD 3 0
  src := f.getD 4 0
  type := f.getD 5 0
  txid := f.getD 8 0
  body := (f.drop 10).take (get16 f 6).toNat

/-! ### The PADP fragment header -/

/-- The three tag bits of a `flags` byte (R100). -/
def flagFirst (flags : Byte) : Bool := flags.getLsbD 7

/-- `LAST`, bit 6 (R100). -/
def flagLast (flags : Byte) : Bool := flags.getLsbD 6

/-- `ACK`, bit 5 (R100). -/
def flagAck (flags : Byte) : Bool := flags.getLsbD 5

/-- `flags[4:0]`, reserved (R104). -/
def flagRsv (flags : Byte) : BitVec 5 := flags.extractLsb' 0 5

/-- A `flags` byte from its fields (R100). -/
def mkFlags (first last ack : Bool) (rsv : BitVec 5) : Byte :=
  BitVec.ofBool first ++ BitVec.ofBool last ++ BitVec.ofBool ack ++ rsv

/-- A fragment: header and data, the body of an SLP frame of type `SLP_TYPE_PADP` (R100). -/
def mkFragment (flags : Byte) (size : Word16) (data : Bytes) : Bytes := flags :: (be16 size ++ data)

/-- The frame content of a fragment this end writes (R192). -/
def padpPacket (c : Config) (txid : Byte) (body : Bytes) : Packet where
  dst := c.padpRemoteSocket
  src := c.padpLocalSocket
  type := c.slpTypePadp
  txid := txid
  body := body

/-- The body of an ack fragment as LE writes it: `20 00 00` (R105). -/
def ackBody : Bytes := [0x20, 0x00, 0x00]

end Sys2Proof.Machine
end

