-- ==== Sys2Proof/Machine/State.lean ====
section
/-! DEFINITION. The state of LE (10_state.md rules R20 to R36, R45, R48), the status codes and output events it speaks in,
and the reasons a step stops. -/

namespace Sys2Proof.Machine

/-- `tx_state` (R26). -/
inductive TxState where
  | idle
  | sending
  | waitAck
  deriving DecidableEq, Repr

/-- `rx_state` (R33). -/
inductive RxState where
  | idle
  | assembling
  deriving DecidableEq, Repr

/-- The status and error codes (60_exceptions.md rule R265); the numbers are in Machine/Flags.lean. -/
inductive Status where
  | ok
  | checksum
  | protocol
  | timeout
  | cancelled
  | busy
  | closed
  | refused
  deriving DecidableEq, Repr

/-- The output events (00_scope.md rule R11). -/
inductive OutEvent where
  /-- `TX_BYTES(s)`: one complete frame on the transmit stream. -/
  | txBytes (s : Bytes)
  /-- `SLP_RX(dst, src, type, txid, body)`. -/
  | slpRx (dst src type txid : Byte) (body : Bytes)
  /-- `PADP_RX_MSG(txid, payload)`. -/
  | padpRxMsg (txid : Byte) (payload : Bytes)
  /-- `PADP_RX_ERR(code)`. -/
  | padpRxErr (code : Status)
  /-- `PADP_TX_DONE(code)`. -/
  | padpTxDone (code : Status)
  deriving DecidableEq, Repr

/-- The data value a host command returns beside its status (R11). -/
inductive ReplyData where
  | none
  /-- `CRC.RD`: the accumulator (R134). -/
  | crc (v : Word16)
  /-- `CRC.CHK`: 1 (true) when equal, 0 (false) when not (R135). -/
  | equal (b : Bool)
  /-- `STATUS`: the status byte (R255). -/
  | statusByte (s : Byte)
  deriving DecidableEq, Repr

/-- The return value of a host command (R11, R256). -/
structure Reply where
  status : Status
  data : ReplyData
  deriving DecidableEq, Repr

/-- The state of LE, the configuration it runs under, and its environment. -/
structure State where
  /-- The configuration (R45); no operation writes it (log 1). -/
  cfg : Config
  /-- `crc` (R22). -/
  crc : Word16
  /-- `win`, the deframer's window (R23). -/
  win : Bytes
  /-- `closed` (R25). -/
  closed : Bool
  /-- `tx_state` (R26). -/
  txState : TxState
  /-- `tx_txid` (R27). -/
  txTxid : Byte
  /-- `tx_ackreq` (R28). -/
  txAckreq : Bool
  /-- `tx_buf` (R29). -/
  txBuf : Bytes
  /-- `tx_off` (R30). -/
  txOff : Nat
  /-- `tx_timer` (R31). -/
  txTimer : Nat
  /-- `tx_retries` (R32). -/
  txRetries : Nat
  /-- `rx_state` (R33). -/
  rxState : RxState
  /-- `rx_txid` (R34). -/
  rxTxid : Byte
  /-- `rx_total` (R35). -/
  rxTotal : Nat
  /-- `rx_buf` (R36). -/
  rxBuf : Bytes
  /-- Environment (R47): the operation records not yet taken, as bytes (R106; log 3). -/
  trace : Bytes
  /-- Environment (R47): every output event so far, oldest first (R11, R70; log 3). -/
  out : List OutEvent
  /-- The return value of the step just taken (R11; log 3). -/
  reply : Option Reply
  deriving DecidableEq, Repr

/-- LE raises no fault: it has no trap (R277), no misalignment fault (R65), no buffer overflow (R69) and no halt (R258),
and nothing in it is undefined (section 2 of 93_implementation_defined.md). -/
inductive Fault where
  deriving DecidableEq, Repr

/-- Why a step has no meaning. -/
inductive Refusal where
  /-- Raised by an arm of `exec` for an instruction that has no meaning yet. Safe: nothing is claimed of it. -/
  | notModelled (mnemonic : String)
  /-- Raised by every operation under a configuration that breaks R7, whose behaviour the spec does not define (R303).
  Safe: nothing is claimed of such a configuration. -/
  | invalidConfiguration
  /-- Raised by `step` on a trace that ends inside a record, which is ill-formed and describes no operation (R108).
  Safe: no run of LE is such a trace. -/
  | truncatedRecord
  /-- Raised by `PADP.TXSTEP` where it is not enabled; such a trace describes no execution of LE (R108, R193).
  Safe: no run of LE is such a trace. -/
  | txstepNotEnabled
  deriving DecidableEq, Repr

/-- The state right after `RESET` (R48), under the default configuration (log 2), with nothing offered, nothing emitted
and no return value (log 3). -/
def State.reset : State where
  cfg := Config.default
  crc := 0x0000
  win := []
  closed := false
  txState := .idle
  txTxid := 0x00
  txAckreq := false
  txBuf := []
  txOff := 0
  txTimer := 0
  txRetries := 0
  rxState := .idle
  rxTxid := 0x00
  rxTotal := 0
  rxBuf := []
  trace := []
  out := []
  reply := none

end Sys2Proof.Machine
end

