-- ==== Sys2Proof/Machine/Ops.lean ====
section
/-! DEFINITION. The operations every meaning is written over: running a rule under a legal configuration, outputs and
return values (00_scope.md rules R9, R11), writing a frame (41_slp_tx.md rule R151), and what an error does to the
state (60_exceptions.md rules R267 to R269, R277: the analogue of taking an exception; R278: there is no return). -/

namespace Sys2Proof.Machine

/-- Run a rule: under a legal configuration the effect takes place in one atomic step (R10), starting with no return
value; a configuration that breaks R7 is refused. -/
def perform (s : State) (effect : State → State) : Host.Outcome State Fault Refusal :=
  if s.cfg.Valid then .next (effect { s with reply := none }) else .refused .invalidConfiguration

/-- The return value of a host command (R11). -/
def State.answer (s : State) (status : Status) (data : ReplyData := .none) : State :=
  { s with reply := some ⟨status, data⟩ }

/-- `emit X(args)`: append an output event (R9). -/
def State.emit (s : State) (e : OutEvent) : State := { s with out := s.out ++ [e] }

/-- `slp_write`: append one whole frame to the transmit stream (R151). -/
def State.slpWrite (s : State) (p : Packet) : State := s.emit (.txBytes (slpEncode p))

/-- What arrives on the receive stream is discarded when `closed = 1` (R165, R180, R257). -/
def State.received (s : State) (effect : State → State) : State := if s.closed then s else effect s

/-- The end of a send (R194, R196, R199, R251): the sender is idle and `PADP_TX_DONE(code)` is emitted. -/
def State.endSend (s : State) (code : Status) : State := { s with txState := .idle }.emit (.padpTxDone code)

/-- The receiver back to `RX_IDLE`, its registers cleared (R227, R228, R251). -/
def State.clearReceive (s : State) : State :=
  { s with rxState := .idle, rxTxid := 0x00, rxTotal := 0, rxBuf := [] }

/-- The failure of a receive (R228, R251): receiver idle, accumulated bytes lost, `PADP_RX_ERR(code)` emitted. -/
def State.failReceive (s : State) (code : Status) : State := s.clearReceive.emit (.padpRxErr code)

/-- `protocol_error()` (R228, R267). -/
def State.protocolError (s : State) : State := s.failReceive .protocol

/-- `PADP.TXSTEP` is enabled (R193, R10). -/
def State.txstepEnabled (s : State) : Bool := !s.closed && s.txState == .sending

end Sys2Proof.Machine
end

