-- ==== Sys2Proof/Machine/CrcUnit.lean ====
section
/-! DEFINITION. The operations on the `crc` register (40_crc16.md rules R132 to R135). They work whatever `closed` is
(R257). -/

namespace Sys2Proof.Machine

/-- `CRC.CLR` (R132). -/
def execCrcClr (s : State) : Host.Outcome State Fault Refusal :=
  perform s fun s => { s with crc := 0x0000 }.answer .ok

/-- `CRC.UPD b` (R133). -/
def execCrcUpd (b : Byte) (s : State) : Host.Outcome State Fault Refusal :=
  perform s fun s => { s with crc := crc16Update s.crc b }.answer .ok

/-- `CRC.RD` (R134). -/
def execCrcRd (s : State) : Host.Outcome State Fault Refusal :=
  perform s fun s => s.answer .ok (.crc s.crc)

/-- `CRC.CHK v` (R135). -/
def execCrcChk (v : Word16) (s : State) : Host.Outcome State Fault Refusal :=
  perform s fun s => s.answer .ok (.equal (s.crc == v))

end Sys2Proof.Machine
end

