-- ==== Sys2Proof/Machine/PadpSender.lean ====
section
/-! DEFINITION. The PADP sender (43_padp_send.md rules R190 to R203). -/

namespace Sys2Proof.Machine

/-- One fragment of the message being sent: its body, whether it is the last, and how many data bytes it has (R191). -/
structure Fragment where
  body : Bytes
  last : Bool
  count : Nat
  deriving DecidableEq, Repr

/-- `frag(o)` (R191) for a fragment size, a payload and an acknowledgement request. -/
def frag (fragSize : Nat) (payload : Bytes) (ackreq : Bool) (o : Nat) : Fragment :=
  let d := (payload.drop o).take fragSize
  let first := o == 0
  let last := decide (payload.length ≤ o + d.length)
  let size := if first then payload.length else o
  { body := mkFragment (mkFlags first last (last && ackreq) 0) (BitVec.ofNat 16 size) d
    last := last
    count := d.length }

/-- `frag(tx_off)` of the message in `tx_buf` (R193, R197). -/
def State.currentFragment (s : State) : Fragment := frag s.cfg.padpFragSize s.txBuf s.txAckreq s.txOff

/-- Write the fragment at `tx_off`, addressed as R192 says. -/
def State.writeFragment (s : State) : State :=
  s.slpWrite (padpPacket s.cfg s.txTxid s.currentFragment.body)

/-- `PADP.SEND txid, opts, payload` (R190); the tests in its order. -/
def execPadpSend (txid opts : Byte) (payload : Bytes) (s : State) : Host.Outcome State Fault Refusal :=
  perform s fun s =>
    if s.closed then s.answer .closed
    else if optsReserved opts then s.answer .refused
    else if s.txState ≠ .idle then s.answer .busy
    else if s.cfg.padpMaxPayload < payload.length then s.answer .refused
    else
      { s with txBuf := payload, txTxid := txid, txAckreq := optsAckreq opts, txOff := 0,
               txState := .sending }.answer .ok

/-- The effect of `PADP.TXSTEP` where it is enabled (R193 to R195). -/
def txstepEffect (s : State) : State :=
  let f := s.currentFragment
  let s := s.writeFragment
  if f.last = false then { s with txOff := s.txOff + f.count }
  else if s.txAckreq then { s with txState := .waitAck, txTimer := s.cfg.padpAckTimeout, txRetries := 0 }
  else s.endSend .ok

/-- `PADP.TXSTEP` (R193). Where it is not enabled it is no step of LE: a trace that holds it there is ill-formed (R108). -/
def execPadpTxstep (s : State) : Host.Outcome State Fault Refusal :=
  if s.cfg.Valid ∧ s.txstepEnabled = false then .refused .txstepNotEnabled else perform s txstepEffect

/-- The effect of `TICK` (R197 to R199). In `TX_WAIT_ACK` `tx_timer` is at least 1 (R31), so the subtraction is exact
(log 12). -/
def tickEffect (s : State) : State :=
  if s.closed || s.txState ≠ .waitAck then s
  else
    let s := { s with txTimer := s.txTimer - 1 }
    if 0 < s.txTimer then s
    else if s.txRetries < s.cfg.padpMaxRetries then
      { s.writeFragment with txRetries := s.txRetries + 1, txTimer := s.cfg.padpAckTimeout }
    else s.endSend .timeout

/-- `TICK` (R197). -/
def execTick (s : State) : Host.Outcome State Fault Refusal := perform s tickEffect

/-- `ack_input(txid)` (R196); an ack that does not match is ignored (R201). -/
def ackInput (txid : Byte) (s : State) : State :=
  if s.txState = .waitAck ∧ txid = s.txTxid then s.endSend .ok else s

/-- `PADP.ACK` received (R196); its `size`, its data and its reserved bits are not examined (R105, R104; log 10). -/
def execPadpAck (txid : Byte) (_rsv : BitVec 5) (_size : Word16) (_data : Bytes) (s : State) :
    Host.Outcome State Fault Refusal :=
  perform s fun s => s.received (ackInput txid)

end Sys2Proof.Machine
end

