-- ==== Sys2Proof/Machine/PadpReceiver.lean ====
section
/-! DEFINITION. The PADP receiver (44_padp_recv.md rules R220 to R235). The meaning of a fragment row of the opcode table
is what its rule does when the fragment has been admitted (R220); received bytes are discarded when `closed = 1`
(R257; log 10). -/

namespace Sys2Proof.Machine

/-- `complete(txid, A, payload)`: deliver, then acknowledge if asked (R227). -/
def complete (txid : Byte) (ack : Bool) (payload : Bytes) (s : State) : State :=
  let s := s.clearReceive.emit (.padpRxMsg txid payload)
  if ack then s.slpWrite (padpPacket s.cfg txid ackBody) else s

/-- `data_first(txid, size, data)` (R223). -/
def dataFirst (txid : Byte) (size : Nat) (data : Bytes) (s : State) : State :=
  if s.rxState = .assembling then s.protocolError
  else if s.cfg.padpMaxPayload < size then s.protocolError
  else if size ≤ data.length then s.protocolError
  else { s with rxState := .assembling, rxTxid := txid, rxTotal := size, rxBuf := data }

/-- `data_only(txid, A, size, data)` (R224). -/
def dataOnly (txid : Byte) (ack : Bool) (size : Nat) (data : Bytes) (s : State) : State :=
  if s.rxState = .assembling then s.protocolError
  else if s.cfg.padpMaxPayload < size then s.protocolError
  else if data.length ≠ size then s.protocolError
  else complete txid ack data s

/-- `data_mid(txid, size, data)` (R225). -/
def dataMid (txid : Byte) (size : Nat) (data : Bytes) (s : State) : State :=
  if s.rxState = .idle then s.protocolError
  else if txid ≠ s.rxTxid then s.protocolError
  else if size ≠ s.rxBuf.length then s.protocolError
  else if s.rxTotal ≤ s.rxBuf.length + data.length then s.protocolError
  else { s with rxBuf := s.rxBuf ++ data }

/-- `data_last(txid, A, size, data)` (R226). -/
def dataLast (txid : Byte) (ack : Bool) (size : Nat) (data : Bytes) (s : State) : State :=
  if s.rxState = .idle then s.protocolError
  else if txid ≠ s.rxTxid then s.protocolError
  else if size ≠ s.rxBuf.length then s.protocolError
  else if s.rxBuf.length + data.length ≠ s.rxTotal then s.protocolError
  else complete txid ack (s.rxBuf ++ data) s

/-- `dispatch`: by fragment kind (R222). -/
def dispatchFragment (txid : Byte) (first last ack : Bool) (size : Nat) (data : Bytes) (s : State) : State :=
  if ack = true ∧ first = false ∧ last = false then ackInput txid s
  else if ack = true ∧ first = true ∧ last = false then s.protocolError
  else if first = true ∧ last = false then dataFirst txid size data s
  else if first = true ∧ last = true then dataOnly txid ack size data s
  else if first = false ∧ last = false then dataMid txid size data s
  else dataLast txid ack size data s

/-- `parse_fragment(p)` (R221). -/
def parseFragment (txid : Byte) (body : Bytes) (s : State) : State :=
  if body.length < 3 then s.protocolError
  else
    let flags := body.getD 0 0
    dispatchFragment txid (flagFirst flags) (flagLast flags) (flagAck flags) (get16 body 1).toNat (body.drop 3) s

/-- `padp_input(p)`: admission (R220). -/
def padpInput (p : Packet) (s : State) : State :=
  if p.type ≠ s.cfg.slpTypePadp then s
  else if p.src ≠ s.cfg.padpRemoteSocket then s
  else parseFragment p.txid p.body s

/-- `PADP.DATA.FIRST` received (R223). -/
def execPadpDataFirst (txid : Byte) (_rsv : BitVec 5) (size : Word16) (data : Bytes) (s : State) :
    Host.Outcome State Fault Refusal :=
  perform s fun s => s.received (dataFirst txid size.toNat data)

/-- `PADP.DATA.ONLY` received (R224). -/
def execPadpDataOnly (txid : Byte) (ack : Bool) (_rsv : BitVec 5) (size : Word16) (data : Bytes) (s : State) :
    Host.Outcome State Fault Refusal :=
  perform s fun s => s.received (dataOnly txid ack size.toNat data)

/-- `PADP.DATA.MID` received (R225). -/
def execPadpDataMid (txid : Byte) (_rsv : BitVec 5) (size : Word16) (data : Bytes) (s : State) :
    Host.Outcome State Fault Refusal :=
  perform s fun s => s.received (dataMid txid size.toNat data)

/-- `PADP.DATA.LAST` received (R226). -/
def execPadpDataLast (txid : Byte) (ack : Bool) (_rsv : BitVec 5) (size : Word16) (data : Bytes) (s : State) :
    Host.Outcome State Fault Refusal :=
  perform s fun s => s.received (dataLast txid ack size.toNat data)

/-- `PADP.ILLEGAL` received: a malformed fragment, whatever its other fields (R229). -/
def execPadpIllegal (_txid : Byte) (_rsv : BitVec 5) (_size : Word16) (_data : Bytes) (s : State) :
    Host.Outcome State Fault Refusal :=
  perform s fun s => s.received State.protocolError

end Sys2Proof.Machine
end

