-- ==== Sys2Proof/Machine/SlpUnit.lean ====
section
/-! DEFINITION. The SLP unit: the write path (41_slp_tx.md rules R150 to R153) and the read path with its resynchronisation
(42_slp_rx.md rules R165 to R178). -/

namespace Sys2Proof.Machine

/-- `SLP.TX dst, src, type, txid, body` (R150, R153). -/
def execSlpTx (p : Packet) (s : State) : Host.Outcome State Fault Refusal :=
  perform s fun s =>
    if s.closed then s.answer .closed
    else if s.cfg.slpMaxBody < p.body.length then s.answer .refused
    else (s.slpWrite p).answer .ok

/-- `deliver(p)`: filtering by destination socket (R174). -/
def deliver (p : Packet) (s : State) : State :=
  if p.dst ∉ s.cfg.slpSubs then s
  else if p.dst = s.cfg.padpLocalSocket then padpInput p s
  else s.emit (.slpRx p.dst p.src p.type p.txid p.body)

/-- What one turn of `scan` finds at the head of the window (R166). -/
inductive Verdict where
  /-- A byte that has not arrived is needed. -/
  | wait
  /-- A test failed: the candidate is no frame. -/
  | reject
  /-- Every test passed: the decoded packet. -/
  | accept (p : Packet)
  deriving DecidableEq, Repr

/-- The tests of one turn of `scan`, in its order (R166): signature prefix (R167), header checksum (R168), length (R169),
CRC (R170). -/
def examine (maxBody : Nat) (win : Bytes) : Verdict :=
  let k := min win.length 3
  let n := (get16 win 6).toNat
  if win.length = 0 then .wait
  else if win.take k ≠ slpSig.take k then .reject
  else if win.length < 10 then .wait
  else if byteSum (win.take 9) ≠ win.getD 9 0 then .reject
  else if maxBody < n then .reject
  else if win.length < 12 + n then .wait
  else if crcAccept (win.take (10 + n)) (get16 win (10 + n)) = false then .reject
  else .accept (slpDecode win)

/-- `scan()` (R166) with a bound on its turns. A rejected candidate loses its first byte only (R172); an accepted one is
removed whole (R171) and delivered before the scan goes on (R176). -/
def scanTurns : Nat → State → State
  | 0, s => s
  | turns + 1, s =>
    match examine s.cfg.slpMaxBody s.win with
    | .wait => s
    | .reject => scanTurns turns { s with win := s.win.drop 1 }
    | .accept p => scanTurns turns (deliver p { s with win := s.win.drop (12 + p.body.length) })

/-- `scan()` (R166): every turn that goes on removes a byte (R173), so as many turns as the window has bytes are
enough. -/
def scan (s : State) : State := scanTurns s.win.length s

/-- The effect of `RX_BYTE b` (R165). -/
def rxByteEffect (b : Byte) (s : State) : State :=
  s.received fun s => scan { s with win := s.win ++ [b] }

/-- `RX_BYTE b` (R165). -/
def execRxByte (b : Byte) (s : State) : Host.Outcome State Fault Refusal := perform s (rxByteEffect b)

/-- Bytes arriving one after another on the receive stream, `RX [..]` (R111). -/
def feed : Bytes → State → State
  | [], s => s
  | b :: bs, s => feed bs (rxByteEffect b s)

/-- `SLP.FRAME` on the receive stream: its bytes arrive in order, `RXPKT` (R90, R97, R111; log 9). -/
def execSlpFrame (p : Packet) (s : State) : Host.Outcome State Fault Refusal := perform s (feed (slpEncode p))

end Sys2Proof.Machine
end

