-- ==== Sys2Proof/Machine/Flags.lean ====
section
/-! DEFINITION. The status flags, views of the sequencing registers (10_state.md rule R37), the byte `STATUS` returns
(45_system.md rule R255) and the numeric status codes (60_exceptions.md rule R265). -/

namespace Sys2Proof.Machine

/-- `CLOSED` (R37). -/
def State.flagClosed (s : State) : Bool := s.closed

/-- `TX_BUSY` (R37). -/
def State.flagTxBusy (s : State) : Bool := s.txState != .idle

/-- `TX_WAITING` (R37). -/
def State.flagTxWaiting (s : State) : Bool := s.txState == .waitAck

/-- `RX_ACTIVE` (R37). -/
def State.flagRxActive (s : State) : Bool := s.rxState == .assembling

/-- `SYNC_PENDING` (R37). -/
def State.flagSyncPending (s : State) : Bool := 0 < s.win.length

/-- The numeric values of `tx_state` (R26, R255). -/
def txStateCode : TxState → BitVec 2
  | .idle => 0
  | .sending => 1
  | .waitAck => 2

/-- The byte `STATUS` returns (R255): bit 0 `closed`, bits 2..1 `tx_state`, bit 3 `rx_state`, bit 4 window not empty,
bits 7..5 zero. -/
def State.statusByte (s : State) : Byte :=
  0#3 ++ BitVec.ofBool s.flagSyncPending ++ BitVec.ofBool s.flagRxActive ++ txStateCode s.txState ++
    BitVec.ofBool s.flagClosed

/-- The numeric status and error codes (R265). -/
def statusCode : Status → Byte
  | .ok => 0
  | .checksum => 1
  | .protocol => 2
  | .timeout => 3
  | .cancelled => 4
  | .busy => 5
  | .closed => 6
  | .refused => 7

end Sys2Proof.Machine
end

