-- ==== Sys2Proof/Machine/System.lean ====
section
/-! DEFINITION. The system operations (45_system.md rules R250 to R255) and the reserved operation codes
(30_encoding.md rule R108). -/

namespace Sys2Proof.Machine

/-- `NOP` (R254). -/
def execNop (s : State) : Host.Outcome State Fault Refusal := perform s fun s => s.answer .ok

/-- `STATUS` (R255). -/
def execStatus (s : State) : Host.Outcome State Fault Refusal :=
  perform s fun s => s.answer .ok (.statusByte s.statusByte)

/-- An outstanding send ends cancelled (R251). -/
def cancelSend (s : State) : State := if s.txState ≠ .idle then s.endSend .cancelled else s

/-- An outstanding reassembly ends cancelled (R251). -/
def cancelReceive (s : State) : State := if s.rxState = .assembling then s.failReceive .cancelled else s

/-- The effect of `CANCEL` and of `CLOSE` (R251, R252). -/
def cancelEffect (s : State) : State :=
  if s.closed then s.answer .ok
  else (cancelReceive (cancelSend { s with closed := true, win := [] })).answer .ok

/-- `CANCEL` (R251). -/
def execCancel (s : State) : Host.Outcome State Fault Refusal := perform s cancelEffect

/-- `CLOSE`: exactly the semantics of `CANCEL` (R252). -/
def execClose (s : State) : Host.Outcome State Fault Refusal := perform s cancelEffect

/-- Every register takes its reset value (R250, R48); the configuration is unchanged, nothing is emitted (R302), and the
environment's records and past outputs are not LE's to reset (R47). -/
def resetEffect (s : State) : State :=
  { State.reset with cfg := s.cfg, trace := s.trace, out := s.out }

/-- `RESET` (R250). -/
def execReset (s : State) : Host.Outcome State Fault Refusal := perform s resetEffect

/-- A record that starts with a reserved code: status `REFUSED`, no state change, no output (R108). -/
def execReserved (_code : Byte) (s : State) : Host.Outcome State Fault Refusal :=
  perform s fun s => s.answer .refused

end Sys2Proof.Machine
end

