-- ==== Sys2Proof/Machine/Dispatch.lean ====
section
/-! DEFINITION. The dispatcher (45_system.md rule R256): one arm per row of the opcode table. -/

namespace Sys2Proof.Machine

def exec (i : Instr) (s : State) : Host.Outcome State Fault Refusal :=
  match i with
  | .nop => Sys2Proof.Machine.execNop s
  | .crcClr => Sys2Proof.Machine.execCrcClr s
  | .crcUpd b => Sys2Proof.Machine.execCrcUpd b s
  | .crcRd => Sys2Proof.Machine.execCrcRd s
  | .crcChk v => Sys2Proof.Machine.execCrcChk v s
  | .slpTx p => Sys2Proof.Machine.execSlpTx p s
  | .padpSend txid opts payload => Sys2Proof.Machine.execPadpSend txid opts payload s
  | .status => Sys2Proof.Machine.execStatus s
  | .rxByte b => Sys2Proof.Machine.execRxByte b s
  | .tick => Sys2Proof.Machine.execTick s
  | .padpTxstep => Sys2Proof.Machine.execPadpTxstep s
  | .cancel => Sys2Proof.Machine.execCancel s
  | .close => Sys2Proof.Machine.execClose s
  | .reset => Sys2Proof.Machine.execReset s
  | .reserved code => Sys2Proof.Machine.execReserved code s
  | .slpFrame p => Sys2Proof.Machine.execSlpFrame p s
  | .padpDataFirst txid rsv size data => Sys2Proof.Machine.execPadpDataFirst txid rsv size data s
  | .padpDataOnly txid ack rsv size data => Sys2Proof.Machine.execPadpDataOnly txid ack rsv size data s
  | .padpDataMid txid rsv size data => Sys2Proof.Machine.execPadpDataMid txid rsv size data s
  | .padpDataLast txid ack rsv size data => Sys2Proof.Machine.execPadpDataLast txid ack rsv size data s
  | .padpAck txid rsv size data => Sys2Proof.Machine.execPadpAck txid rsv size data s
  | .padpIllegal txid rsv size data => Sys2Proof.Machine.execPadpIllegal txid rsv size data s

end Sys2Proof.Machine
end

