-- ==== Sys2Proof/WellFormed.lean ====
section
/-! DEFINITION. Which terms of `Instr` an encoding exists for: a body or payload is sized by a 16-bit field (30_encoding.md
rules R93, R106), a fragment by the body of its frame (R100), and a reserved record starts with a code R107 does not
assign (R108). -/

namespace Sys2Proof

/-- The largest value of a 16-bit length field. -/
def maxLength16 : Nat := 65535

/-- A body fits its 16-bit `n` or `bodySize` field. -/
def bodyFits (body : Bytes) : Bool := body.length ≤ maxLength16

/-- A fragment's data fits an SLP body behind the three header bytes (R100). -/
def fragmentFits (data : Bytes) : Bool := padpHdrLen + data.length ≤ maxLength16

/-- The instruction has an encoding. -/
def Instr.wf : Instr → Bool
  | .nop => true
  | .crcClr => true
  | .crcUpd _ => true
  | .crcRd => true
  | .crcChk _ => true
  | .slpTx p => bodyFits p.body
  | .padpSend _ _ payload => bodyFits payload
  | .status => true
  | .rxByte _ => true
  | .tick => true
  | .padpTxstep => true
  | .cancel => true
  | .close => true
  | .reset => true
  | .reserved code => (Machine.opOfCode code).isNone
  | .slpFrame p => bodyFits p.body
  | .padpDataFirst _ _ _ data => fragmentFits data
  | .padpDataOnly _ _ _ _ data => fragmentFits data
  | .padpDataMid _ _ _ data => fragmentFits data
  | .padpDataLast _ _ _ _ data => fragmentFits data
  | .padpAck _ _ _ data => fragmentFits data
  | .padpIllegal _ _ _ data => fragmentFits data

end Sys2Proof
end

