-- ==== Sys2Proof/Decode.lean ====
section
/-! DEFINITION. The decoders of the three encoding spaces of spec/opcode_table.json, total on any bytes and rejecting by
name, and the encoder: operation records (30_encoding.md rules R106 to R108), SLP frames (R90 to R99) and PADP
fragments (R100 to R104). The three spaces use the same first bytes for different rows; which space bytes belong
to is decided by where they stand (a trace, the receive stream, a frame's body), never by their value. -/

namespace Sys2Proof

open Machine

/-- Why bytes decode to no instruction. -/
inductive DecodeError where
  /-- A trace with no byte holds no record. -/
  | emptyTrace
  /-- A trace ends inside the record of this code (R108). -/
  | truncatedRecord (code : Byte)
  /-- Bytes are left after the record. -/
  | trailingBytes
  /-- Fewer bytes than the shortest frame, 12 (R90). -/
  | shortFrame
  /-- The first three bytes are not `SLP_SIG` (R91). -/
  | badSignature
  /-- Byte 9 is not the sum of bytes 0 to 8 (R94). -/
  | badHeaderChecksum
  /-- The frame's length is not `12 + bodySize` (R99). -/
  | badLength
  /-- The trailer is not the CRC-16 of the bytes before it (R96). -/
  | badCrc
  /-- A body shorter than the three header bytes (R109, R221). -/
  | shortFragment
  deriving DecidableEq, Repr

/-! ### Operation records -/

/-- Format `H0`: no operand (R106). -/
def decodeH0 (i : Instr) (rest : Bytes) : Except DecodeError (Instr × Bytes) := .ok (i, rest)

/-- Format `H1`: one byte (R106). -/
def decodeH1 (code : Byte) (mk : Byte → Instr) (rest : Bytes) : Except DecodeError (Instr × Bytes) :=
  match rest with
  | b :: r => .ok (mk b, r)
  | [] => .error (.truncatedRecord code)

/-- Format `H2`: a 16-bit value, high byte first (R106). -/
def decodeH2 (code : Byte) (mk : Word16 → Instr) (rest : Bytes) : Except DecodeError (Instr × Bytes) :=
  match rest with
  | hi :: lo :: r => .ok (mk (word16 hi lo), r)
  | _ => .error (.truncatedRecord code)

/-- A 16-bit length `n`, high byte first, then `n` bytes (R106). -/
def decodeSized (code : Byte) (mk : Bytes → Instr) (rest : Bytes) : Except DecodeError (Instr × Bytes) :=
  match rest with
  | hi :: lo :: r =>
    let n := (word16 hi lo).toNat
    if r.length < n then .error (.truncatedRecord code) else .ok (mk (r.take n), r.drop n)
  | _ => .error (.truncatedRecord code)

/-- Format `HS`: `dst`, `src`, `type`, `txid`, then a sized body (R106). -/
def decodeHS (code : Byte) (rest : Bytes) : Except DecodeError (Instr × Bytes) :=
  match rest with
  | dst :: src :: type :: txid :: r => decodeSized code (fun body => .slpTx ⟨dst, src, type, txid, body⟩) r
  | _ => .error (.truncatedRecord code)

/-- Format `HP`: `txid`, `opts`, then a sized payload (R106). -/
def decodeHP (code : Byte) (rest : Bytes) : Except DecodeError (Instr × Bytes) :=
  match rest with
  | txid :: opts :: r => decodeSized code (fun payload => .padpSend txid opts payload) r
  | _ => .error (.truncatedRecord code)

/-- The operands of an operation, by its record format (R106, R107). -/
def decodeOperands (code : Byte) (op : Op) (rest : Bytes) : Except DecodeError (Instr × Bytes) :=
  match op with
  | .nop => decodeH0 .nop rest
  | .crcClr => decodeH0 .crcClr rest
  | .crcUpd => decodeH1 code .crcUpd rest
  | .crcRd => decodeH0 .crcRd rest
  | .crcChk => decodeH2 code .crcChk rest
  | .slpTx => decodeHS code rest
  | .padpSend => decodeHP code rest
  | .status => decodeH0 .status rest
  | .rxByte => decodeH1 code .rxByte rest
  | .tick => decodeH0 .tick rest
  | .padpTxstep => decodeH0 .padpTxstep rest
  | .cancel => decodeH0 .cancel rest
  | .close => decodeH0 .close rest
  | .reset => decodeH0 .reset rest

/-- The first record of a trace, and what follows it (R106 to R108). A reserved code's record has no known length and a
trace decoder stops there, so nothing follows it (DEDUCED, log 6). -/
def decodeRecord (trace : Bytes) : Except DecodeError (Instr × Bytes) :=
  match trace with
  | [] => .error .emptyTrace
  | code :: rest =>
    match opOfCode code with
    | none => .ok (.reserved code, [])
    | some row => decodeOperands code row.op rest

/-! ### SLP frames -/

/-- A whole frame (R90 to R99): the bytes are exactly one frame. The bound `SLP_MAX_BODY` of the receiver is no part of
the format and is tested by the deframer (R169). -/
def decodeFrame (f : Bytes) : Except DecodeError Instr :=
  let n := (get16 f 6).toNat
  if f.length < 12 then .error .shortFrame
  else if f.take 3 ≠ slpSig then .error .badSignature
  else if byteSum (f.take 9) ≠ f.getD 9 0 then .error .badHeaderChecksum
  else if f.length ≠ 12 + n then .error .badLength
  else if crcAccept (f.take (10 + n)) (get16 f (10 + n)) = false then .error .badCrc
  else .ok (.slpFrame (slpDecode f))

/-! ### PADP fragments -/

/-- The kind of a fragment, by `flags & 0xE0` (R102); the sequencing identity is the frame's `transactionId`. -/
def fragmentOfFlags (txid flags : Byte) (size : Word16) (data : Bytes) : Instr :=
  let tag := flags &&& 0xE0
  let rsv := flagRsv flags
  if tag = 0x80 then .padpDataFirst txid rsv size data
  else if tag = 0xC0 then .padpDataOnly txid false rsv size data
  else if tag = 0xE0 then .padpDataOnly txid true rsv size data
  else if tag = 0x00 then .padpDataMid txid rsv size data
  else if tag = 0x40 then .padpDataLast txid false rsv size data
  else if tag = 0x60 then .padpDataLast txid true rsv size data
  else if tag = 0x20 then .padpAck txid rsv size data
  else .padpIllegal txid rsv size data

/-- A fragment: the body of an SLP frame of type `SLP_TYPE_PADP` with transaction id `txid` (R100, R102). -/
def decodeFragment (txid : Byte) (body : Bytes) : Except DecodeError Instr :=
  match body with
  | flags :: hi :: lo :: data => .ok (fragmentOfFlags txid flags (word16 hi lo) data)
  | _ => .error .shortFragment

/-! ### The three spaces -/

/-- Where an instruction's encoding stands: in a trace, on a stream, or in the body of a frame whose transaction id is
given (the "space" of the opcode table's rows). -/
inductive Space where
  | record
  | frame
  | fragment (txid : Byte)
  deriving DecidableEq, Repr

/-- The space of an instruction's encoding. -/
def Instr.space : Instr → Space
  | .nop => .record
  | .crcClr => .record
  | .crcUpd _ => .record
  | .crcRd => .record
  | .crcChk _ => .record
  | .slpTx _ => .record
  | .padpSend _ _ _ => .record
  | .status => .record
  | .rxByte _ => .record
  | .tick => .record
  | .padpTxstep => .record
  | .cancel => .record
  | .close => .record
  | .reset => .record
  | .reserved _ => .record
  | .slpFrame _ => .frame
  | .padpDataFirst txid _ _ _ => .fragment txid
  | .padpDataOnly txid _ _ _ _ => .fragment txid
  | .padpDataMid txid _ _ _ => .fragment txid
  | .padpDataLast txid _ _ _ _ => .fragment txid
  | .padpAck txid _ _ _ => .fragment txid
  | .padpIllegal txid _ _ _ => .fragment txid

/-- The bytes are exactly one instruction of the space. -/
def decode (space : Space) (bytes : Bytes) : Except DecodeError Instr :=
  match space with
  | .record =>
    match decodeRecord bytes with
    | .ok (i, []) => .ok i
    | .ok (_, _ :: _) => .error .trailingBytes
    | .error e => .error e
  | .frame => decodeFrame bytes
  | .fragment txid => decodeFragment txid bytes

/-! ### The encoder -/

/-- A 16-bit length, high byte first, then the bytes (R106). -/
def encodeSized (s : Bytes) : Bytes := be16 (BitVec.ofNat 16 s.length) ++ s

/-- The bytes of a well-formed instruction in its space, from the tables of R90, R100, R102, R106 and R107. -/
def encode : Instr → Bytes
  | .nop => [0x00]
  | .crcClr => [0x01]
  | .crcUpd b => [0x02, b]
  | .crcRd => [0x03]
  | .crcChk v => 0x04 :: be16 v
  | .slpTx p => [0x10, p.dst, p.src, p.type, p.txid] ++ encodeSized p.body
  | .padpSend txid opts payload => [0x20, txid, opts] ++ encodeSized payload
  | .status => [0x30]
  | .rxByte b => [0x40, b]
  | .tick => [0x41]
  | .padpTxstep => [0x42]
  | .cancel => [0xF0]
  | .close => [0xF1]
  | .reset => [0xFF]
  | .reserved code => [code]
  | .slpFrame p => slpEncode p
  | .padpDataFirst _ rsv size data => mkFragment (mkFlags true false false rsv) size data
  | .padpDataOnly _ ack rsv size data => mkFragment (mkFlags true true ack rsv) size data
  | .padpDataMid _ rsv size data => mkFragment (mkFlags false false false rsv) size data
  | .padpDataLast _ ack rsv size data => mkFragment (mkFlags false true ack rsv) size data
  | .padpAck _ rsv size data => mkFragment (mkFlags false false true rsv) size data
  | .padpIllegal _ rsv size data => mkFragment (mkFlags true false true rsv) size data

/-- The trace in which a byte sequence arrives on the receive stream, the expansion of `RX [..]` (R111). -/
def rxRecords : Bytes → Bytes
  | [] => []
  | b :: bs => encode (.rxByte b) ++ rxRecords bs

/-! ### Instructions as the opcode table numbers their bits -/

/-- The lowest `n` bytes of a number, bits 7..0 first. -/
def numberBytes : Nat → Nat → Bytes
  | 0, _ => []
  | n + 1, w => BitVec.ofNat 8 w :: numberBytes n (w / 256)

/-- How many bytes the record that starts with these header bytes has (R106); a reserved code is its own record. -/
def recordLength (header : Bytes) : Nat :=
  match opOfCode (header.getD 0 0) with
  | none => 1
  | some row =>
    match row.format with
    | .h0 => 1
    | .h1 => 2
    | .h2 => 3
    | .hs => 7 + (get16 header 5).toNat
    | .hp => 5 + (get16 header 3).toNat

/-- The bytes of the record whose bits are `w`, bit 0 the least significant of its first byte, every bit at or above
`nbits` being 0: operand bytes the number does not reach are zeros, and nothing stands behind the record. -/
def tableRecord (nbits w : Nat) : Bytes :=
  let given := numberBytes ((nbits + 7) / 8) (w % 2 ^ nbits)
  let header := given ++ List.replicate 7 0
  let len := recordLength header
  (header ++ List.replicate (len - header.length) 0).take len

/-- The instruction of the operation record whose bits are `w` as spec/opcode_table.json numbers them. The table's wire
rows (`SLP.FRAME`, `PADP.*`) are no operation records: their first bytes are the codes of other rows or reserved
codes here (DESIGN CHOICE, log 11), and `decode` reads them in their own spaces. -/
def decodeTableWord (nbits w : Nat) : Option Instr :=
  match decodeRecord (tableRecord nbits w) with
  | .ok (i, _) => some i
  | .error _ => none

end Sys2Proof
end

