-- ==== Sys2Proof/Machine/Fetch.lean ====
section
/-! DEFINITION. Taking the next operation record of the trace (30_encoding.md rules R106, R108), and what LE does when no
event is offered (45_system.md rule R256). -/

namespace Sys2Proof.Machine

/-- What the trace offers next. -/
inductive Fetched where
  /-- No record is left. -/
  | idle
  /-- A record and the trace behind it. -/
  | record (i : Instr) (rest : Bytes)
  /-- The trace ends inside a record (R108). -/
  | illFormed
  deriving DecidableEq, Repr

/-- The next record of the trace (R106). -/
def fetch (s : State) : Fetched :=
  match s.trace with
  | [] => .idle
  | code :: rest =>
    match decodeRecord (code :: rest) with
    | .ok (i, rest) => .record i rest
    | .error _ => .illFormed

/-- No event is offered: an enabled `PADP.TXSTEP` is taken (the weak fairness of R256), else LE waits and nothing
changes (R301). DESIGN CHOICE (log 4). -/
def idleStep (s : State) : Host.Outcome State Fault Refusal :=
  if s.cfg.Valid then
    if s.txstepEnabled then execPadpTxstep s else .next s
  else .refused .invalidConfiguration

/-- The state with these bytes as its trace: how a program is loaded from outside (log 3). -/
def State.offering (s : State) (bytes : Bytes) : State := { s with trace := bytes }

end Sys2Proof.Machine
end

