-- ==== Sys2Proof/Machine/Step.lean ====
section
/-! DEFINITION. One step of LE (45_system.md rule R256, 00_scope.md rule R10). -/

namespace Sys2Proof.Machine

/-- The next record of the trace is taken and its operation run on the state with the rest of the trace. With no record
left the one step that may still be taken is the internal `PADP.TXSTEP`; where it is not enabled LE waits for an event
(R301). DESIGN CHOICE (log 4): the trace is the order of events, every order being some trace (log 5). -/
def step (s : State) : Host.Outcome State Fault Refusal :=
  match fetch s with
  | .idle => idleStep s
  | .record i rest => exec i { s with trace := rest }
  | .illFormed => .refused .truncatedRecord

/-- The state with the record whose bits are `w` as the next, and only, record of the trace. -/
def State.withFetchWord (s : State) (nbits w : Nat) : State := s.offering (tableRecord nbits w)

end Sys2Proof.Machine
end

