-- ==== Sys2Proof/Safety.lean ====
section
/-! DEFINITION. What a state of LE between two steps looks like (the invariants of 10_state.md R23, R29 to R36,
42_slp_rx.md R173 and 45_system.md R257), and the words the statements use. -/

namespace Sys2Proof.Machine

/-- `closed = 1` implies both machines idle and the window empty (R257). -/
abbrev ClosedIsQuiet (s : State) : Prop :=
  s.closed = true → s.txState = .idle ∧ s.rxState = .idle ∧ s.win = []

/-- The window is empty or a proper prefix of a possible frame, at most `11 + SLP_MAX_BODY` bytes (R173, R23). -/
abbrev WindowIsPending (s : State) : Prop :=
  s.win.length ≤ 11 + s.cfg.slpMaxBody ∧
  s.win.take (min s.win.length 3) = slpSig.take (min s.win.length 3) ∧
  (10 ≤ s.win.length →
    byteSum (s.win.take 9) = s.win.getD 9 0 ∧ (get16 s.win 6).toNat ≤ s.cfg.slpMaxBody ∧
    s.win.length < 12 + (get16 s.win 6).toNat)

/-- The sender's registers are in their ranges (R29 to R32). While a send is outstanding `tx_off` is the offset of a
fragment of the message (R30, R191); in `TX_WAIT_ACK` the timer is running (R31), that fragment is the last (R30) and an
acknowledgement was asked for (R195). -/
abbrev SenderInRange (s : State) : Prop :=
  s.txBuf.length ≤ s.cfg.padpMaxPayload ∧ s.txOff ≤ s.txBuf.length ∧
  s.txTimer ≤ s.cfg.padpAckTimeout ∧ s.txRetries ≤ s.cfg.padpMaxRetries ∧
  (s.txState ≠ .idle → s.txOff % s.cfg.padpFragSize = 0 ∧ (s.txOff = 0 ∨ s.txOff < s.txBuf.length)) ∧
  (s.txState = .waitAck →
    1 ≤ s.txTimer ∧ s.txBuf.length ≤ s.txOff + s.cfg.padpFragSize ∧ s.txAckreq = true)

/-- The receiver's registers: zero when idle (R34 to R36), a strictly incomplete message when assembling (R36), in the
capacity of R35. -/
abbrev ReceiverInRange (s : State) : Prop :=
  s.rxTotal ≤ s.cfg.padpMaxPayload ∧
  (s.rxState = .idle → s.rxTxid = 0x00 ∧ s.rxTotal = 0 ∧ s.rxBuf = []) ∧
  (s.rxState = .assembling → s.rxBuf.length < s.rxTotal)

/-- The invariant every step keeps. -/
abbrev Inv (s : State) : Prop :=
  ClosedIsQuiet s ∧ WindowIsPending s ∧ SenderInRange s ∧ ReceiverInRange s

/-- The state after `protocol_error()` (R228), with no return value. -/
def afterProtocolError (s : State) : State :=
  { s with rxState := .idle, rxTxid := 0x00, rxTotal := 0, rxBuf := [],
           out := s.out ++ [.padpRxErr .protocol], reply := none }

/-- The frame content of an ack for a message (R105). -/
def ackPacket (c : Config) (txid : Byte) : Packet :=
  ⟨c.padpRemoteSocket, c.padpLocalSocket, c.slpTypePadp, txid, [0x20, 0x00, 0x00]⟩

/-- The state after a complete message (R227), with no return value. -/
def afterMessage (txid : Byte) (ack : Bool) (payload : Bytes) (s : State) : State :=
  { s with rxState := .idle, rxTxid := 0x00, rxTotal := 0, rxBuf := [],
           out := s.out ++ [.padpRxMsg txid payload] ++
             (if ack then [.txBytes (slpEncode (ackPacket s.cfg txid))] else []),
           reply := none }

/-- A byte sequence with one bit inverted: bit `j` of byte `k`. -/
def flipBit (s : Bytes) (k j : Nat) : Bytes := s.modify k (· ^^^ (1#8 <<< j))

/-- How many sends have been reported ended (R273). -/
def doneCount (out : List OutEvent) : Nat :=
  out.countP fun e => match e with | .padpTxDone _ => true | _ => false

/-- 1 while a send is outstanding, else 0. -/
def sendsOutstanding (s : State) : Nat :=
  match s.txState with
  | .idle => 0
  | .sending => 1
  | .waitAck => 1

/-- The number of fragments of a payload of `len` bytes (R191). -/
def fragmentCount (fragSize len : Nat) : Nat := max 1 ((len + fragSize - 1) / fragSize)

/-- Fragment `i` of a message as R191 writes it, of `total` fragments. -/
def messageFragment (fragSize total : Nat) (payload : Bytes) (ackreq : Bool) (i : Nat) : Bytes :=
  let flags : Byte :=
    (if i = 0 then 0x80 else 0) ||| (if i + 1 = total then 0x40 else 0) |||
      (if i + 1 = total ∧ ackreq = true then 0x20 else 0)
  flags :: (be16 (BitVec.ofNat 16 (if i = 0 then payload.length else i * fragSize)) ++
    (payload.drop (i * fragSize)).take fragSize)

/-- The frames of a message, in the order they are sent (R191 to R193). -/
def messageFrames (c : Config) (txid : Byte) (ackreq : Bool) (payload : Bytes) : List Bytes :=
  let n := fragmentCount c.padpFragSize payload.length
  (List.range n).map fun i =>
    slpEncode ⟨c.padpRemoteSocket, c.padpLocalSocket, c.slpTypePadp, txid,
      messageFragment c.padpFragSize n payload ackreq i⟩

end Sys2Proof.Machine
end

