-- ==== Sys2Proof/Certificates/Slice0/Obligations.lean ====
section
/-! DEFINITION. The statements for the provers, from the numbered rules of spec/. Each docstring names its rules; OBLIGATIONS.json
lists them. A statement about one instruction gives its whole next state, which is its frame. -/

open Sys2Proof Sys2Proof.Machine

/-! ### Encodings -/

/-- Words written out from the encodings of R90, R100, R106 and R107 decode to their instructions. -/
def Obligations.WrittenWordsDecode : Prop :=
  decode .record [0x00] = .ok .nop ∧
  decode .record [0x02, 0x31] = .ok (.crcUpd 0x31) ∧
  decode .record [0x04, 0xB2, 0xD5] = .ok (.crcChk 0xB2D5) ∧
  decode .record [0x10, 0x01, 0x02, 0x00, 0xFF, 0x00, 0x01, 0x00] = .ok (.slpTx ⟨0x01, 0x02, 0x00, 0xFF, [0x00]⟩) ∧
  decode .record [0x20, 0x07, 0x01, 0x00, 0x02, 0xDE, 0xAD] = .ok (.padpSend 0x07 0x01 [0xDE, 0xAD]) ∧
  decode .record [0xFF] = .ok .reset ∧
  decode .record [0x05] = .ok (.reserved 0x05) ∧
  decode .frame [0xBE, 0xEF, 0xED, 0x01, 0x02, 0x00, 0x00, 0x01, 0xFF, 0x9D, 0x00, 0x35, 0xF1] =
    .ok (.slpFrame ⟨0x01, 0x02, 0x00, 0xFF, [0x00]⟩) ∧
  decode (.fragment 0x10) [0x80, 0x00, 0x06, 0x01, 0x02] = .ok (.padpDataFirst 0x10 0 0x0006 [0x01, 0x02]) ∧
  decode (.fragment 0x10) [0x60, 0x00, 0x04, 0x05, 0x06] = .ok (.padpDataLast 0x10 true 0 0x0004 [0x05, 0x06])

/-- Decoding what a well-formed instruction encodes to, in its own space, gives the instruction back: records (R106, R107),
frames (R90, R97), fragments (R100, R102). -/
def Obligations.EncodingsDecodeBack : Prop :=
  ∀ i : Instr, i.wf = true → decode i.space (encode i) = .ok i

/-- A trace is a concatenation of records (R106): behind a record the decoder goes on with what follows it, also behind a
`PADP.SEND` record with reserved `opts` bits (DEDUCED from R108, log 7); a reserved code ends the trace (DEDUCED from
R108, log 6). -/
def Obligations.TraceIsConcatenationOfRecords : Prop :=
  (∀ (i : Instr) (rest : Bytes), i.wf = true → i.space = .record → (∀ c, i ≠ .reserved c) →
    decodeRecord (encode i ++ rest) = .ok (i, rest)) ∧
  (∀ (c : Byte) (rest : Bytes), (Instr.reserved c).wf = true → decodeRecord (c :: rest) = .ok (.reserved c, []))

/-- What a record decodes to is well-formed and encodes to the bytes that were read: no two byte strings are one
instruction (R106 to R108). -/
def Obligations.DecodedRecordReencodes : Prop :=
  ∀ (bytes rest : Bytes) (i : Instr), decodeRecord bytes = .ok (i, rest) →
    i.wf = true ∧ ((∃ c tail, i = .reserved c ∧ rest = [] ∧ bytes = c :: tail) ∨ encode i ++ rest = bytes)

/-- What a frame or a fragment decodes to encodes to the bytes that were read, reserved bits included (R90, R100, R104). -/
def Obligations.DecodedWireReencodes : Prop :=
  (∀ (f : Bytes) (i : Instr), decodeFrame f = .ok i → i.wf = true ∧ encode i = f) ∧
  (∀ (txid : Byte) (body : Bytes) (i : Instr), body.length ≤ 65535 → decodeFragment txid body = .ok i →
    i.wf = true ∧ i.space = .fragment txid ∧ encode i = body)

/-- A step runs the record the trace starts with, on the state with the rest of the trace (R256, R106). -/
def Obligations.StepRunsTheNextRecord : Prop :=
  (∀ (s : State) (i : Instr) (rest : Bytes), decodeRecord s.trace = .ok (i, rest) →
    step s = exec i { s with trace := rest }) ∧
  (∀ (s : State) (i : Instr) (rest : Bytes), i.wf = true → i.space = .record → (∀ c, i ≠ .reserved c) →
    s.trace = encode i ++ rest → step s = exec i { s with trace := rest })

/-- With no record left the step is an enabled `PADP.TXSTEP`, else nothing changes. The model's choice: log 4. -/
def Obligations.StepWithoutRecord : Prop :=
  ∀ s : State, s.cfg.Valid → s.trace = [] →
    step s = if s.closed = false ∧ s.txState = .sending then exec .padpTxstep s else .next s

/-- A trace that ends inside a record is ill-formed and describes no operation (R108). The refusal is the model's
form of that: log 8. -/
def Obligations.TruncatedRecordIsRefused : Prop :=
  ∀ (i : Instr) (k : Nat) (s : State), i.wf = true → i.space = .record → (∀ c, i ≠ .reserved c) →
    0 < k → k < (encode i).length → s.trace = (encode i).take k → step s = .refused .truncatedRecord

/-- The word the host places for the next fetch is the word the next step runs, and nothing is behind it (the model's
`withFetchWord`: log 3). -/
def Obligations.PlacedWordRunsNext : Prop :=
  ∀ (s : State) (nbits w : Nat) (i : Instr), decodeTableWord nbits w = some i →
    step (s.withFetchWord nbits w) = exec i { s with trace := [] }

/-! ### The CRC unit -/

/-- A byte enters the accumulator most significant bit first, bit 7 first and bit 0 last (R63, R130): the same function as
the bit-serial register that takes each bit at its top. -/
def Obligations.CrcByteIsBitSerial : Prop :=
  ∀ (c : Word16) (b : Byte),
    crc16Update c b =
      [7, 6, 5, 4, 3, 2, 1, 0].foldl
        (fun (c : Word16) (j : Nat) =>
          if (c.getLsbD 15 ^^ b.getLsbD j) = true then (c <<< 1) ^^^ 0x1021#16 else c <<< 1) c

/-- `crc16` is the left fold from the zero seed (R131). -/
def Obligations.CrcIsLeftFold : Prop :=
  crc16 [] = 0x0000 ∧
  (∀ (s : Bytes) (b : Byte), crc16 (s ++ [b]) = crc16Update (crc16 s) b) ∧
  (List.range 10).map (fun k => crc16 ([0x31, 0x32, 0x33, 0x34, 0x35, 0x36, 0x37, 0x38, 0x39].take k)) =
    [0x0000, 0x2672, 0x20B5, 0x9752, 0xD789, 0x546C, 0x20E4, 0x86D6, 0x9015, 0x31C3]

/-- The residue form of the test (R137). -/
def Obligations.CrcResidueIsZeroIffTrailerFits : Prop :=
  (∀ (m : Bytes) (t : Word16), crc16 (m ++ be16 t) = 0x0000 ↔ crc16 m = t) ∧
  crc16 ([0x31, 0x32, 0x33, 0x34, 0x35, 0x36, 0x37, 0x38, 0x39] ++ [0xC3, 0x31]) = 0xBAFE

/-- Linearity and invisible leading zeros (R138 b, c, d). -/
def Obligations.CrcIsLinear : Prop :=
  (∀ (c1 c2 : Word16) (b1 b2 : Byte),
    crc16Update (c1 ^^^ c2) (b1 ^^^ b2) = crc16Update c1 b1 ^^^ crc16Update c2 b2) ∧
  (∀ s t : Bytes, s.length = t.length → crc16 (List.zipWith (· ^^^ ·) s t) = crc16 s ^^^ crc16 t) ∧
  (∀ s : Bytes, crc16 (0x00 :: s) = crc16 s) ∧
  (∀ n : Nat, crc16 (List.replicate n 0x00) = 0x0000) ∧
  crc16 [0x00] = 0x0000 ∧ crc16 [0x01] = 0x1021 ∧ crc16 [0x80] = 0x9188 ∧ crc16 [0xFF] = 0x1EF0 ∧
  crc16 [0x41] = 0x58E5

/-- Any single-bit change in message or trailer turns acceptance into rejection (the first half of R138 e). -/
def Obligations.CrcDetectsEverySingleBitError : Prop :=
  ∀ (m m' : Bytes) (t t' : Word16) (k j : Nat), j < 8 → k < m.length + 2 → crcAccept m t = true →
    flipBit (m ++ be16 t) k j = m' ++ be16 t' → crcAccept m' t' = false

/-- The four `CRC` commands, whatever `closed` is (R132 to R135): records, results and whole next states. -/
def Obligations.CrcCommandsComplete : Prop :=
  ∀ s : State, s.cfg.Valid →
    exec .crcClr s = .next { s with crc := 0x0000, reply := some ⟨.ok, .none⟩ } ∧
    (∀ b : Byte, exec (.crcUpd b) s = .next { s with crc := crc16Update s.crc b, reply := some ⟨.ok, .none⟩ }) ∧
    exec .crcRd s = .next { s with reply := some ⟨.ok, .crc s.crc⟩ } ∧
    (∀ v : Word16, exec (.crcChk v) s = .next { s with reply := some ⟨.ok, .equal (decide (s.crc = v))⟩ }) ∧
    decode .record [0x01] = .ok .crcClr ∧ (∀ b : Byte, decode .record [0x02, b] = .ok (.crcUpd b)) ∧
    decode .record [0x03] = .ok .crcRd ∧
    (∀ hi lo : Byte, decode .record [0x04, hi, lo] = .ok (.crcChk (hi ++ lo)))

/-- The accumulator is written by `CRC.CLR` and `CRC.UPD` and by `RESET`, by nothing else (R22). -/
def Obligations.CrcWrittenOnlyByItsCommands : Prop :=
  ∀ (i : Instr) (s t : State), exec i s = .next t → i ≠ .crcClr → (∀ b, i ≠ .crcUpd b) → i ≠ .reset → t.crc = s.crc

/-- What the host did with the `CRC` commands never shows outside them (R139): two states that differ only in `crc` stay
so under every other instruction, with the same outputs and return values. -/
def Obligations.CrcInfluencesNothingElse : Prop :=
  ∀ (i : Instr) (s t : State) (c : Word16), exec i s = .next t → i ≠ .crcRd → (∀ v, i ≠ .crcChk v) →
    ∃ u : State, exec i { s with crc := c } = .next u ∧ { u with crc := t.crc } = t

/-! ### The SLP unit -/

/-- `SLP.TX` (R150, R153): its record, the tests in their order, and the frame. -/
def Obligations.SlpTxOutcomes : Prop :=
  (∀ (p : Packet) (hi lo : Byte), (hi ++ lo).toNat = p.body.length →
    decode .record ([0x10, p.dst, p.src, p.type, p.txid, hi, lo] ++ p.body) = .ok (.slpTx p)) ∧
  ∀ (p : Packet) (s : State), s.cfg.Valid →
    exec (.slpTx p) s =
      .next
        (if s.closed = true then { s with reply := some ⟨.closed, .none⟩ }
         else if s.cfg.slpMaxBody < p.body.length then { s with reply := some ⟨.refused, .none⟩ }
         else { s with out := s.out ++ [.txBytes (slpEncode p)], reply := some ⟨.ok, .none⟩ })

/-- The byte image of a frame (R90 to R97): the nine bytes, their sum, the body, the CRC-16 of all of them, and
`slp_decode` as the inverse. -/
def Obligations.SlpEncodeLayout : Prop :=
  ∀ p : Packet, p.body.length ≤ 65535 →
    ∃ hi lo : Byte, (hi ++ lo).toNat = p.body.length ∧
      (let h9 : Bytes := [0xBE, 0xEF, 0xED, p.dst, p.src, p.type, hi, lo, p.txid]
       let f : Bytes := h9 ++ [BitVec.ofNat 8 (h9.map BitVec.toNat).sum] ++ p.body
       ∃ chi clo : Byte, chi ++ clo = crc16 f ∧ slpEncode p = f ++ [chi, clo]) ∧
      (slpEncode p).length = 12 + p.body.length ∧ slpDecode (slpEncode p) = p

/-- A candidate is accepted exactly when the window begins with the frame of a packet whose body is within the bound, and
the packet is that one (R166, R170, R76). -/
def Obligations.DeframerAcceptsExactlyFrames : Prop :=
  ∀ (maxBody : Nat) (win : Bytes) (p : Packet), maxBody ≤ 65535 →
    (examine maxBody win = .accept p ↔ p.body.length ≤ maxBody ∧ ∃ rest, win = slpEncode p ++ rest)

/-- `scan()` as its rule writes it (R166; the single drops of R167 to R170, R172). -/
def Obligations.ScanFollowsItsRule : Prop :=
  ∀ s : State,
    let n := (get16 s.win 6).toNat
    let dropped : State := { s with win := s.win.drop 1 }
    let k := min s.win.length 3
    scan s =
      if s.win.length = 0 then s
      else if s.win.take k ≠ slpSig.take k then scan dropped
      else if s.win.length < 10 then s
      else if byteSum (s.win.take 9) ≠ s.win.getD 9 0 then scan dropped
      else if n > s.cfg.slpMaxBody then scan dropped
      else if s.win.length < 12 + n then s
      else if crc16 (s.win.take (10 + n)) ≠ get16 s.win (10 + n) then scan dropped
      else
        scan (deliver ⟨s.win.getD 3 0, s.win.getD 4 0, s.win.getD 5 0, s.win.getD 8 0, (s.win.drop 10).take n⟩
          { s with win := s.win.drop (12 + n) })

/-- `RX_BYTE` (R165): its record, and the byte appended and scanned, or discarded when closed. -/
def Obligations.RxByteOutcome : Prop :=
  (∀ b : Byte, decode .record [0x40, b] = .ok (.rxByte b)) ∧
  ∀ (b : Byte) (s : State), s.cfg.Valid →
    exec (.rxByte b) s =
      .next
        (if s.closed = true then { s with reply := none } else scan { s with win := s.win ++ [b], reply := none })

/-- `RX_BYTE` completes, and what it leaves unchanged (R165, R234, R22): outputs are only added, and of the sender only
`tx_state` may change, from `TX_WAIT_ACK` to `TX_IDLE`. -/
def Obligations.RxByteFrame : Prop :=
  ∀ (b : Byte) (s : State), s.cfg.Valid →
    ∃ t : State, exec (.rxByte b) s = .next t ∧
      t.cfg = s.cfg ∧ t.crc = s.crc ∧ t.closed = s.closed ∧ t.txTxid = s.txTxid ∧ t.txAckreq = s.txAckreq ∧
      t.txBuf = s.txBuf ∧ t.txOff = s.txOff ∧ t.txTimer = s.txTimer ∧ t.txRetries = s.txRetries ∧
      t.trace = s.trace ∧ t.reply = none ∧ (∃ added, t.out = s.out ++ added) ∧
      (t.txState = s.txState ∨ (s.txState = .waitAck ∧ t.txState = .idle))

/-- After every `RX_BYTE` step of an open LE the window is empty or a proper prefix of a possible frame, whatever it was
before (R173). -/
def Obligations.WindowPendingAfterRxByte : Prop :=
  ∀ (b : Byte) (s t : State), s.closed = false → exec (.rxByte b) s = .next t → WindowIsPending t

/-- Round trip of the write path and the read path (R154): a frame fed to a deframer with an empty window is held byte by
byte, accepted as exactly one packet at its last byte, and leaves the window empty. That the row `SLP.FRAME` completes
in every state (any window, closed or not, a body of any length) and is the arrival of its bytes is the model's meaning of
that row (DESIGN CHOICE, log 9). A frame whose body is over the bound is never accepted (R169): where the bytes after
its first contain no signature it leaves no trace but a beginning of a signature (R172). -/
def Obligations.FrameRoundTrip : Prop :=
  (∀ (p : Packet) (s : State), s.cfg.Valid → s.win = [] → s.closed = false → p.body.length ≤ s.cfg.slpMaxBody →
    (∀ k < 12 + p.body.length,
      feed ((slpEncode p).take k) s = { s with win := (slpEncode p).take k }) ∧
    feed (slpEncode p) s = deliver p s ∧ (deliver p s).win = []) ∧
  (∀ (p : Packet) (s : State), s.cfg.Valid →
    exec (.slpFrame p) s = .next (feed (slpEncode p) { s with reply := none })) ∧
  (∀ (p : Packet) (s : State), s.cfg.Valid → s.win = [] → s.closed = false → s.cfg.slpMaxBody < p.body.length →
    p.body.length ≤ 65535 →
    (∀ u v : Bytes, (slpEncode p).drop 1 ≠ u ++ slpSig ++ v) →
    ∃ w : Bytes, (w = [] ∨ w = [0xBE] ∨ w = [0xBE, 0xEF]) ∧ feed (slpEncode p) s = { s with win := w })

/-- A frame arrives as the `RX_BYTE` records of its bytes, one step each (R111 `RXPKT`; the meaning the model gives the row
`SLP.FRAME`: log 9). -/
def Obligations.FrameArrivesByteByByte : Prop :=
  ∀ (p : Packet) (rest : Bytes) (s : State),
    core.run (slpEncode p).length { s with trace := rxRecords (slpEncode p) ++ rest } =
      exec (.slpFrame p) { s with trace := rest }

/-- Filtering by destination socket (R174): no subscriber, a subscriber outside LE, the PADP unit. -/
def Obligations.DeliveryFiltersBySocket : Prop :=
  ∀ (p : Packet) (s : State), s.cfg.Valid → s.win = [] → s.closed = false → p.body.length ≤ s.cfg.slpMaxBody →
    (p.dst ∉ s.cfg.slpSubs → exec (.slpFrame p) s = .next { s with reply := none }) ∧
    (p.dst ∈ s.cfg.slpSubs → p.dst ≠ s.cfg.padpLocalSocket →
      exec (.slpFrame p) s =
        .next { s with out := s.out ++ [.slpRx p.dst p.src p.type p.txid p.body], reply := none }) ∧
    (p.dst = s.cfg.padpLocalSocket → exec (.slpFrame p) s = .next (padpInput p { s with reply := none }))

/-- Flipping one body bit of a valid frame causes it to be discarded silently at its last byte (until then it is held whole
in the window) without impairing the next valid frame, when the bytes after its first contain no signature (the
testable property in R179). -/
def Obligations.BitFlipDropsOnlyItsFrame : Prop :=
  ∀ (p q : Packet) (k j : Nat) (s : State), s.cfg.Valid → s.win = [] → s.closed = false →
    p.body.length ≤ s.cfg.slpMaxBody → q.body.length ≤ s.cfg.slpMaxBody →
    10 ≤ k → k < 10 + p.body.length → j < 8 →
    (∀ u v : Bytes, (flipBit (slpEncode p) k j).drop 1 ≠ u ++ slpSig ++ v) →
    (∀ m < 12 + p.body.length,
      feed ((flipBit (slpEncode p) k j).take m) s = { s with win := (flipBit (slpEncode p) k j).take m }) ∧
    (∃ w : Bytes, (w = [] ∨ w = [0xBE] ∨ w = [0xBE, 0xEF]) ∧
      feed (flipBit (slpEncode p) k j) s = { s with win := w }) ∧
    feed (flipBit (slpEncode p) k j ++ slpEncode q) s = deliver q s

/-! ### The PADP sender -/

/-- `PADP.SEND` (R190, R202): its record, the tests in their order, and the payload captured. -/
def Obligations.PadpSendOutcomes : Prop :=
  (∀ (txid opts hi lo : Byte) (payload : Bytes), (hi ++ lo).toNat = payload.length →
    decode .record ([0x20, txid, opts, hi, lo] ++ payload) = .ok (.padpSend txid opts payload)) ∧
  ∀ (txid opts : Byte) (payload : Bytes) (s : State), s.cfg.Valid →
    exec (.padpSend txid opts payload) s =
      .next
        (if s.closed = true then { s with reply := some ⟨.closed, .none⟩ }
         else if opts >>> 1 ≠ 0 then { s with reply := some ⟨.refused, .none⟩ }
         else if s.txState ≠ .idle then { s with reply := some ⟨.busy, .none⟩ }
         else if s.cfg.padpMaxPayload < payload.length then { s with reply := some ⟨.refused, .none⟩ }
         else
           { s with txBuf := payload, txTxid := txid, txAckreq := opts.getLsbD 0, txOff := 0, txState := .sending,
                    reply := some ⟨.ok, .none⟩ })

/-- Fragmentation (R191): fragment `i` at offset `i * F` has the flags, size and data of the rule; all but the last carry
exactly `F` bytes, only the last says so, and the data in order are the payload. -/
def Obligations.FragmentsCutThePayload : Prop :=
  ∀ (fragSize : Nat) (payload : Bytes) (ackreq : Bool), 1 ≤ fragSize → payload.length ≤ 65535 →
    let n := fragmentCount fragSize payload.length
    (∀ i < n,
      let f := frag fragSize payload ackreq (i * fragSize)
      f.body = messageFragment fragSize n payload ackreq i ∧ f.last = decide (i + 1 = n) ∧
      f.count = min fragSize (payload.length - i * fragSize) ∧ (i + 1 < n → f.count = fragSize) ∧
      (payload ≠ [] → 1 ≤ f.count)) ∧
    (List.range n).flatMap (fun i => (messageFragment fragSize n payload ackreq i).drop 3) = payload

/-- `PADP.TXSTEP` where it is enabled (R193, R194): one frame, addressed as R192 says, and the next state of the three
cases. -/
def Obligations.TxstepWritesOneFragment : Prop :=
  decode .record [0x42] = .ok .padpTxstep ∧
  ∀ s : State, s.cfg.Valid → s.closed = false → s.txState = .sending →
    let f := frag s.cfg.padpFragSize s.txBuf s.txAckreq s.txOff
    let frame := slpEncode ⟨s.cfg.padpRemoteSocket, s.cfg.padpLocalSocket, s.cfg.slpTypePadp, s.txTxid, f.body⟩
    exec .padpTxstep s =
      .next
        (if f.last = false then
          { s with txOff := s.txOff + f.count, out := s.out ++ [.txBytes frame], reply := none }
         else if s.txAckreq = true then
          { s with txState := .waitAck, txTimer := s.cfg.padpAckTimeout, txRetries := 0,
                   out := s.out ++ [.txBytes frame], reply := none }
         else { s with txState := .idle, out := s.out ++ [.txBytes frame, .padpTxDone .ok], reply := none })

/-- `PADP.TXSTEP` is enabled if and only if `closed = 0` and `tx_state = TX_SENDING` (R193); elsewhere a trace that holds it
is ill-formed (R108; the refusal is the model's form of that: log 8). -/
def Obligations.TxstepRefusedWhereNotEnabled : Prop :=
  ∀ s : State, s.cfg.Valid → ¬ (s.closed = false ∧ s.txState = .sending) →
    exec .padpTxstep s = .refused .txstepNotEnabled

/-- `TICK` (R197 to R199) and its record. The subtraction at 0 in `TX_WAIT_ACK`, which no run reaches, is left out (log 12). -/
def Obligations.TickOutcomes : Prop :=
  decode .record [0x41] = .ok .tick ∧
  ∀ s : State, s.cfg.Valid → (s.txState = .waitAck → 1 ≤ s.txTimer) →
    let f := frag s.cfg.padpFragSize s.txBuf s.txAckreq s.txOff
    let frame := slpEncode ⟨s.cfg.padpRemoteSocket, s.cfg.padpLocalSocket, s.cfg.slpTypePadp, s.txTxid, f.body⟩
    exec .tick s =
      .next
        (if s.closed = true ∨ s.txState ≠ .waitAck then { s with reply := none }
         else if 1 < s.txTimer then { s with txTimer := s.txTimer - 1, reply := none }
         else if s.txRetries < s.cfg.padpMaxRetries then
          { s with txTimer := s.cfg.padpAckTimeout, txRetries := s.txRetries + 1,
                   out := s.out ++ [.txBytes frame], reply := none }
         else { s with txState := .idle, txTimer := 0, out := s.out ++ [.padpTxDone .timeout], reply := none })

/-- A retransmission is byte-identical to the first transmission of the last fragment (R198). -/
def Obligations.RetransmissionIsByteIdentical : Prop :=
  ∀ (s t : State) (r : Nat) (out : List OutEvent), exec .padpTxstep s = .next t → t.txState = .waitAck →
    r < t.cfg.padpMaxRetries →
    ∃ frame : Bytes, t.out = s.out ++ [.txBytes frame] ∧
      exec .tick { t with txTimer := 1, txRetries := r, out := out } =
        .next { t with txTimer := t.cfg.padpAckTimeout, txRetries := r + 1, out := out ++ [.txBytes frame] }

/-- A send with `ackreq = 1` that is never acknowledged (R200): counted from the step that wrote the last fragment, the
frame is written again at every `T`-th tick, `R` times, and at tick `(1 + R) * T` the send ends with code 3. -/
def Obligations.UnacknowledgedSendTimesOut : Prop :=
  ∀ (s : State) (k : Nat), s.cfg.Valid → s.closed = false → s.txState = .sending → s.txAckreq = true →
    s.txBuf.length ≤ s.txOff + s.cfg.padpFragSize →
    let total := (1 + s.cfg.padpMaxRetries) * s.cfg.padpAckTimeout
    let f := frag s.cfg.padpFragSize s.txBuf s.txAckreq s.txOff
    let frame := slpEncode ⟨s.cfg.padpRemoteSocket, s.cfg.padpLocalSocket, s.cfg.slpTypePadp, s.txTxid, f.body⟩
    (k < total →
      ∃ t : State, core.run (1 + k) { s with trace := 0x42 :: List.replicate k 0x41 } = .next t ∧
        t.txState = .waitAck ∧
        t.out = s.out ++ List.replicate (1 + k / s.cfg.padpAckTimeout) (.txBytes frame)) ∧
    (k = total →
      ∃ t : State, core.run (1 + k) { s with trace := 0x42 :: List.replicate k 0x41 } = .next t ∧
        t.txState = .idle ∧
        t.out = s.out ++ List.replicate (1 + s.cfg.padpMaxRetries) (.txBytes frame) ++ [.padpTxDone .timeout])

/-- `PADP.ACK` (R196, R201): its fragments, and what it does in an open LE. That a closed LE discards it is DEDUCED from R257
(log 10). -/
def Obligations.AckOutcomes : Prop :=
  (∀ (txid flags hi lo : Byte) (data : Bytes), flags &&& 0xE0 = 0x20 →
    decode (.fragment txid) ([flags, hi, lo] ++ data) =
      .ok (.padpAck txid (flags.extractLsb' 0 5) (hi ++ lo) data)) ∧
  ∀ (txid : Byte) (rsv : BitVec 5) (size : Word16) (data : Bytes) (s : State), s.cfg.Valid →
    exec (.padpAck txid rsv size data) s =
      .next
        (if s.closed = false ∧ s.txState = .waitAck ∧ txid = s.txTxid then
          { s with txState := .idle, out := s.out ++ [.padpTxDone .ok], reply := none }
         else { s with reply := none })

/-- A send writes all its fragments in order, one a step, whatever the fragment size (R191, R193, R70), and then waits or is
done. -/
def Obligations.SendWritesAllFragments : Prop :=
  ∀ (txid opts : Byte) (payload : Bytes) (s a : State),
    s.closed = false → exec (.padpSend txid opts payload) s = .next a → a.reply = some ⟨.ok, .none⟩ →
    let n := fragmentCount s.cfg.padpFragSize payload.length
    let frames := messageFrames s.cfg txid (opts.getLsbD 0) payload
    frames.length = n ∧
    ∃ b : State, core.run n { a with trace := List.replicate n 0x42 } = .next b ∧
      b.txState = (if opts.getLsbD 0 = true then .waitAck else .idle) ∧
      b.out = s.out ++ frames.map .txBytes ++ (if opts.getLsbD 0 = true then [] else [.padpTxDone .ok])

/-! ### The PADP receiver -/

/-- `PADP.DATA.FIRST` (R223): its fragments, and what it does in an open LE. -/
def Obligations.FirstFragmentOutcomes : Prop :=
  (∀ (txid flags hi lo : Byte) (data : Bytes), flags &&& 0xE0 = 0x80 →
    decode (.fragment txid) ([flags, hi, lo] ++ data) =
      .ok (.padpDataFirst txid (flags.extractLsb' 0 5) (hi ++ lo) data)) ∧
  ∀ (txid : Byte) (rsv : BitVec 5) (size : Word16) (data : Bytes) (s : State), s.cfg.Valid → s.closed = false →
    exec (.padpDataFirst txid rsv size data) s =
      .next
        (if s.rxState = .assembling ∨ s.cfg.padpMaxPayload < size.toNat ∨ size.toNat ≤ data.length then
          afterProtocolError s
         else
          { s with rxState := .assembling, rxTxid := txid, rxTotal := size.toNat, rxBuf := data, reply := none })

/-- `PADP.DATA.ONLY` (R224, R227): its fragments, and what it does in an open LE. -/
def Obligations.OnlyFragmentOutcomes : Prop :=
  (∀ (txid flags hi lo : Byte) (data : Bytes), flags &&& 0xC0 = 0xC0 →
    decode (.fragment txid) ([flags, hi, lo] ++ data) =
      .ok (.padpDataOnly txid (flags.getLsbD 5) (flags.extractLsb' 0 5) (hi ++ lo) data)) ∧
  ∀ (txid : Byte) (ack : Bool) (rsv : BitVec 5) (size : Word16) (data : Bytes) (s : State), s.cfg.Valid →
    s.closed = false →
    exec (.padpDataOnly txid ack rsv size data) s =
      .next
        (if s.rxState = .assembling ∨ s.cfg.padpMaxPayload < size.toNat ∨ data.length ≠ size.toNat then
          afterProtocolError s
         else afterMessage txid ack data s)

/-- `PADP.DATA.MID` (R225): its fragments, and what it does in an open LE. -/
def Obligations.MidFragmentOutcomes : Prop :=
  (∀ (txid flags hi lo : Byte) (data : Bytes), flags &&& 0xE0 = 0x00 →
    decode (.fragment txid) ([flags, hi, lo] ++ data) =
      .ok (.padpDataMid txid (flags.extractLsb' 0 5) (hi ++ lo) data)) ∧
  ∀ (txid : Byte) (rsv : BitVec 5) (size : Word16) (data : Bytes) (s : State), s.cfg.Valid → s.closed = false →
    exec (.padpDataMid txid rsv size data) s =
      .next
        (if s.rxState = .idle ∨ txid ≠ s.rxTxid ∨ size.toNat ≠ s.rxBuf.length ∨
            s.rxTotal ≤ s.rxBuf.length + data.length then
          afterProtocolError s
         else { s with rxBuf := s.rxBuf ++ data, reply := none })

/-- `PADP.DATA.LAST` (R226, R227): its fragments, and what it does in an open LE. -/
def Obligations.LastFragmentOutcomes : Prop :=
  (∀ (txid flags hi lo : Byte) (data : Bytes), flags &&& 0xC0 = 0x40 →
    decode (.fragment txid) ([flags, hi, lo] ++ data) =
      .ok (.padpDataLast txid (flags.getLsbD 5) (flags.extractLsb' 0 5) (hi ++ lo) data)) ∧
  ∀ (txid : Byte) (ack : Bool) (rsv : BitVec 5) (size : Word16) (data : Bytes) (s : State), s.cfg.Valid →
    s.closed = false →
    exec (.padpDataLast txid ack rsv size data) s =
      .next
        (if s.rxState = .idle ∨ txid ≠ s.rxTxid ∨ size.toNat ≠ s.rxBuf.length ∨
            s.rxBuf.length + data.length ≠ s.rxTotal then
          afterProtocolError s
         else afterMessage txid ack (s.rxBuf ++ data) s)

/-- `PADP.ILLEGAL` (R229, R228): its fragments, and what it does in an open LE, in either receiver state. -/
def Obligations.IllegalFragmentIsProtocolError : Prop :=
  (∀ (txid flags hi lo : Byte) (data : Bytes), flags &&& 0xE0 = 0xA0 →
    decode (.fragment txid) ([flags, hi, lo] ++ data) =
      .ok (.padpIllegal txid (flags.extractLsb' 0 5) (hi ++ lo) data)) ∧
  ∀ (txid : Byte) (rsv : BitVec 5) (size : Word16) (data : Bytes) (s : State), s.cfg.Valid → s.closed = false →
    exec (.padpIllegal txid rsv size data) s = .next (afterProtocolError s)

/-- Admission, header extraction and dispatch (R220 to R222): a frame of the channel does what the fragment its body decodes
to does, a body too short is a ProtocolError, and a frame of another type or source is ignored. -/
def Obligations.ReceivedFragmentRunsItsRow : Prop :=
  ∀ (p : Packet) (s : State), s.cfg.Valid → s.win = [] → s.closed = false → p.body.length ≤ s.cfg.slpMaxBody →
    p.dst = s.cfg.padpLocalSocket →
    (p.type ≠ s.cfg.slpTypePadp ∨ p.src ≠ s.cfg.padpRemoteSocket →
      exec (.slpFrame p) s = .next { s with reply := none }) ∧
    (p.type = s.cfg.slpTypePadp → p.src = s.cfg.padpRemoteSocket →
      (p.body.length < 3 → exec (.slpFrame p) s = .next (afterProtocolError s)) ∧
      (∀ i : Instr, decodeFragment p.txid p.body = .ok i → exec (.slpFrame p) s = exec i s))

/-- A data fragment never changes a `tx_*` register, an ack fragment never a receiver register (R234). -/
def Obligations.SenderAndReceiverIndependent : Prop :=
  ∀ (i : Instr) (txid : Byte) (s t : State), i.space = .fragment txid → exec i s = .next t →
    ((∀ rsv size data, i ≠ .padpAck txid rsv size data) →
      t.txState = s.txState ∧ t.txTxid = s.txTxid ∧ t.txAckreq = s.txAckreq ∧ t.txBuf = s.txBuf ∧ t.txOff = s.txOff ∧
      t.txTimer = s.txTimer ∧ t.txRetries = s.txRetries) ∧
    ((∃ rsv size data, i = .padpAck txid rsv size data) →
      t.rxState = s.rxState ∧ t.rxTxid = s.rxTxid ∧ t.rxTotal = s.rxTotal ∧ t.rxBuf = s.rxBuf)

/-- Round trip of a message (R235): the frames of one complete send, fed to a second LE with the sockets exchanged, make it
emit exactly one `PADP_RX_MSG` with the payload, for every fragment size, and, when an acknowledgement was asked for,
exactly one ack frame, which fed back ends the send with code 0. -/
def Obligations.MessageRoundTrip : Prop :=
  ∀ (c : Config) (txid : Byte) (ackreq : Bool) (payload : Bytes) (r : State), c.Valid → r.cfg.Valid →
    r.cfg.padpLocalSocket = c.padpRemoteSocket → r.cfg.padpRemoteSocket = c.padpLocalSocket →
    r.cfg.slpTypePadp = c.slpTypePadp → c.slpMaxBody ≤ r.cfg.slpMaxBody → payload.length ≤ c.padpMaxPayload →
    payload.length ≤ r.cfg.padpMaxPayload → r.rxState = .idle → r.rxTxid = 0x00 → r.rxTotal = 0 → r.rxBuf = [] →
    r.win = [] → r.closed = false →
    let ack := slpEncode ⟨c.padpLocalSocket, c.padpRemoteSocket, c.slpTypePadp, txid, [0x20, 0x00, 0x00]⟩
    feed (messageFrames c txid ackreq payload).flatten r =
      { r with out := r.out ++ [.padpRxMsg txid payload] ++ (if ackreq = true then [.txBytes ack] else []) } ∧
    (∀ b : State, b.cfg = c → b.win = [] → b.closed = false → b.txState = .waitAck → b.txTxid = txid →
      feed ack b = { b with txState := .idle, out := b.out ++ [.padpTxDone .ok] })

/-! ### System operations -/

/-- `RESET` and its record, in every state, closed or not (R250, R48, R302). -/
def Obligations.ResetOutcome : Prop :=
  decode .record [0xFF] = .ok .reset ∧
  ∀ s : State, s.cfg.Valid →
    exec .reset s =
      .next
        { s with crc := 0x0000, win := [], closed := false, txState := .idle, txTxid := 0x00, txAckreq := false,
                 txBuf := [], txOff := 0, txTimer := 0, txRetries := 0, rxState := .idle, rxTxid := 0x00,
                 rxTotal := 0, rxBuf := [], reply := none }

/-- `CANCEL`, and `CLOSE` with exactly its semantics (R251, R252), and their records. -/
def Obligations.CancelAndCloseOutcomes : Prop :=
  decode .record [0xF0] = .ok .cancel ∧ decode .record [0xF1] = .ok .close ∧
  ∀ s : State, s.cfg.Valid →
    let sendEvents : List OutEvent := if s.txState = .idle then [] else [.padpTxDone .cancelled]
    let t : State :=
      if s.closed = true then { s with reply := some ⟨.ok, .none⟩ }
      else if s.rxState = .assembling then
        { s with closed := true, win := [], txState := .idle, rxState := .idle, rxTxid := 0x00, rxTotal := 0, rxBuf := [],
                 out := s.out ++ sendEvents ++ [.padpRxErr .cancelled], reply := some ⟨.ok, .none⟩ }
      else
        { s with closed := true, win := [], txState := .idle, out := s.out ++ sendEvents, reply := some ⟨.ok, .none⟩ }
    exec .cancel s = .next t ∧ exec .close s = .next t

/-- `NOP` and `STATUS` and their records, in every state (R254, R255): the status byte bit by bit. -/
def Obligations.NopAndStatusOutcomes : Prop :=
  decode .record [0x00] = .ok .nop ∧ decode .record [0x30] = .ok .status ∧
  ∀ s : State, s.cfg.Valid →
    exec .nop s = .next { s with reply := some ⟨.ok, .none⟩ } ∧
    ∃ b : Byte, exec .status s = .next { s with reply := some ⟨.ok, .statusByte b⟩ } ∧
      b.getLsbD 0 = s.closed ∧
      b.extractLsb' 1 2 = (match s.txState with | .idle => 0#2 | .sending => 1#2 | .waitAck => 2#2) ∧
      b.getLsbD 3 = decide (s.rxState = .assembling) ∧
      b.getLsbD 4 = decide (s.win ≠ []) ∧
      b.extractLsb' 5 3 = 0#3

/-- The status flags are views of the sequencing registers, shown by the status byte (R37). -/
def Obligations.StatusFlagsAreViews : Prop :=
  (∀ s : State,
    s.flagClosed = s.statusByte.getLsbD 0 ∧ s.flagTxBusy = (s.statusByte.getLsbD 1 || s.statusByte.getLsbD 2) ∧
    s.flagTxWaiting = s.statusByte.getLsbD 2 ∧ s.flagRxActive = s.statusByte.getLsbD 3 ∧
    s.flagSyncPending = s.statusByte.getLsbD 4 ∧
    (s.flagClosed = true ↔ s.closed = true) ∧ (s.flagRxActive = true ↔ s.rxState = .assembling) ∧
    (s.flagTxBusy = true ↔ s.txState ≠ .idle) ∧ (s.flagTxWaiting = true ↔ s.txState = .waitAck) ∧
    (s.flagSyncPending = true ↔ 0 < s.win.length)) ∧
  State.reset.statusByte = 0x00

/-- A record that starts with a code not in R107 is refused: status 7, no state change, no output (R108), and no record is
read behind it (log 6). -/
def Obligations.ReservedCodeIsRefused : Prop :=
  ∀ (c : Byte) (s : State), s.cfg.Valid →
    exec (.reserved c) s = .next { s with reply := some ⟨.refused, .none⟩ } ∧
    (c ∉ ([0x00, 0x01, 0x02, 0x03, 0x04, 0x10, 0x20, 0x30, 0x40, 0x41, 0x42, 0xF0, 0xF1, 0xFF] : Bytes) →
      ∀ rest : Bytes, step { s with trace := c :: rest } =
        .next { s with trace := [], reply := some ⟨.refused, .none⟩ })

/-- What every operation does when `closed = 1` (R257), in the states the rule's invariant allows; for the wire rows, which
arrive as received bytes, log 10. -/
def Obligations.ClosedTable : Prop :=
  ∀ s : State, s.cfg.Valid → s.closed = true → s.txState = .idle →
    (∀ i ∈ [Instr.cancel, .close, .nop], exec i s = .next { s with reply := some ⟨.ok, .none⟩ }) ∧
    (∀ p, exec (.slpTx p) s = .next { s with reply := some ⟨.closed, .none⟩ }) ∧
    (∀ txid opts payload, exec (.padpSend txid opts payload) s = .next { s with reply := some ⟨.closed, .none⟩ }) ∧
    (∀ b, exec (.rxByte b) s = .next { s with reply := none }) ∧
    exec .tick s = .next { s with reply := none } ∧
    exec .padpTxstep s = .refused .txstepNotEnabled ∧
    (∀ p, exec (.slpFrame p) s = .next { s with reply := none }) ∧
    (∀ (i : Instr) (txid : Byte), i.space = .fragment txid → exec i s = .next { s with reply := none })

/-! ### Whole-machine rules -/

/-- Every step keeps the invariant (R23, R29 to R36, R173, R257). -/
def Obligations.StepKeepsInvariant : Prop :=
  ∀ s t : State, Inv s → step s = .next t → Inv t

/-- The reset state meets the invariant. -/
def Obligations.ResetMeetsInvariant : Prop := Inv State.reset

/-- `closed` is set only by `CANCEL` and `CLOSE` and cleared only by `RESET` (R25). -/
def Obligations.ClosedChangesOnlyBy : Prop :=
  ∀ (i : Instr) (s t : State), exec i s = .next t →
    (s.closed = false → t.closed = true → i = .cancel ∨ i = .close) ∧
    (s.closed = true → t.closed = false → i = .reset)

/-- No operation writes the configuration (R45) or the records still to be taken, and outputs are only appended (R70); a
step removes what it takes from the front of the trace. -/
def Obligations.ConfigurationFixedOutputsAppended : Prop :=
  (∀ (i : Instr) (s t : State), exec i s = .next t →
    t.cfg = s.cfg ∧ t.trace = s.trace ∧ ∃ added, t.out = s.out ++ added) ∧
  (∀ s t : State, step s = .next t →
    t.cfg = s.cfg ∧ (∃ taken, s.trace = taken ++ t.trace) ∧ ∃ added, t.out = s.out ++ added)

/-- Exactly one `PADP_TX_DONE` per accepted `PADP.SEND`, unless a `RESET` intervenes (R273): ends reported plus sends
outstanding grow by one exactly when a `PADP.SEND` is accepted. -/
def Obligations.OneTxDonePerAcceptedSend : Prop :=
  ∀ (i : Instr) (s t : State), exec i s = .next t → i ≠ .reset →
    doneCount t.out + sendsOutstanding t =
      doneCount s.out + sendsOutstanding s +
        (match i with
          | .padpSend _ _ _ => if t.reply = some ⟨.ok, .none⟩ then 1 else 0
          | _ => 0)

/-- `BUSY`, `CLOSED` and `REFUSED` leave the whole state unchanged and emit nothing (R270). -/
def Obligations.RejectionChangesNothing : Prop :=
  ∀ (i : Instr) (s t : State) (st : Status) (d : ReplyData), exec i s = .next t → t.reply = some ⟨st, d⟩ →
    st = .busy ∨ st = .closed ∨ st = .refused → t = { s with reply := some ⟨st, d⟩ }

/-- ChecksumError is never returned and never emitted (R266), and the asynchronous codes never are return values
(R265). -/
def Obligations.ChecksumErrorIsSilent : Prop :=
  ∀ (i : Instr) (s t : State) (added : List OutEvent), exec i s = .next t → t.out = s.out ++ added →
    (∀ e ∈ added, e ≠ .padpRxErr .checksum ∧ e ≠ .padpTxDone .checksum) ∧
    (∀ st d, t.reply = some ⟨st, d⟩ → st = .ok ∨ st = .busy ∨ st = .closed ∨ st = .refused)

/-- The transmit stream is written in whole frames of packets within `SLP_MAX_BODY` (R67, R151). -/
def Obligations.TransmitStreamIsWholeFrames : Prop :=
  ∀ (s t : State) (added : List OutEvent), step s = .next t → t.out = s.out ++ added →
    ∀ f : Bytes, .txBytes f ∈ added → ∃ p : Packet, p.body.length ≤ s.cfg.slpMaxBody ∧ f = slpEncode p

/-- A configuration that breaks a constraint of R7 is refused. -/
def Obligations.IllegalConfigurationIsRefused : Prop :=
  ∀ (i : Instr) (s : State),
    s.cfg.padpFragSize = 0 ∨ s.cfg.slpMaxBody < 3 + s.cfg.padpFragSize ∨ 65535 < s.cfg.slpMaxBody ∨
      65535 < s.cfg.padpMaxPayload ∨ s.cfg.padpAckTimeout = 0 ∨ s.cfg.padpLocalSocket ∉ s.cfg.slpSubs →
    exec i s = .refused .invalidConfiguration
end

