-- ==== Sys2Proof/Laws/Crc.lean ====
section
/-! SUPPORT. The CRC-16 as a linear, injective map (40_crc16.md rules R130, R131, R137, R138). -/

namespace Sys2Proof.Machine

/-! ### One turn of the shift register -/

/-- The turn as one XOR. -/
theorem crc16Shift_eq (c : Word16) :
    crc16Shift c = (c <<< 1) ^^^ (if c.getLsbD 15 then 0x1021#16 else 0#16) := by
  unfold crc16Shift
  split <;> simp

@[simp] theorem crc16Shift_zero : crc16Shift 0#16 = 0#16 := by decide

theorem crc16Shift_xor (a b : Word16) : crc16Shift (a ^^^ b) = crc16Shift a ^^^ crc16Shift b := by
  simp only [crc16Shift_eq, BitVec.getLsbD_xor, BitVec.shiftLeft_xor_distrib]
  cases a.getLsbD 15 <;> cases b.getLsbD 15 <;> simp only [Bool.bne_false, Bool.bne_true, Bool.not_true, Bool.not_false,
    Bool.false_eq_true, if_true, if_false, BitVec.xor_zero]
  · ac_rfl
  · ac_rfl
  · calc a <<< 1 ^^^ b <<< 1 = (a <<< 1 ^^^ b <<< 1) ^^^ (0x1021#16 ^^^ 0x1021#16) := by simp
      _ = _ := by ac_rfl

/-- The bit shifted out reappears as bit 0, so no information is lost. -/
theorem crc16Shift_eq_zero {c : Word16} (h : crc16Shift c = 0#16) : c = 0#16 := by
  rw [crc16Shift_eq] at h
  have h15 : c.getLsbD 15 = false := by
    have h0 := congrArg (BitVec.getLsbD · 0) h
    cases hc : c.getLsbD 15
    · rfl
    · rw [hc] at h0
      have h1 : (0x1021#16).getLsbD 0 = true := by decide
      simp only [BitVec.getLsbD_xor, BitVec.getLsbD_shiftLeft, if_true, h1] at h0
      simp at h0
  rw [h15] at h
  simp only [Bool.false_eq_true, if_false, BitVec.xor_zero] at h
  apply BitVec.eq_of_getLsbD_eq
  intro i hi
  by_cases h' : i = 15
  · rw [h', h15]
    simp
  · have := congrArg (BitVec.getLsbD · (i + 1)) h
    have h3 : i + 1 < 16 := by omega
    simp only [BitVec.getLsbD_shiftLeft, h3] at this
    simpa using this

/-! ### Eight turns -/

/-- The eight turns of one byte. -/
def crc16Turn8 (c : Word16) : Word16 :=
  crc16Shift (crc16Shift (crc16Shift (crc16Shift (crc16Shift (crc16Shift (crc16Shift (crc16Shift c)))))))

@[simp] theorem crc16Turn8_zero : crc16Turn8 0#16 = 0#16 := by simp [crc16Turn8]

theorem crc16Turn8_xor (a b : Word16) : crc16Turn8 (a ^^^ b) = crc16Turn8 a ^^^ crc16Turn8 b := by
  simp only [crc16Turn8, crc16Shift_xor]

theorem crc16Turn8_eq_zero {c : Word16} (h : crc16Turn8 c = 0#16) : c = 0#16 := by
  unfold crc16Turn8 at h
  iterate 8 replace h := crc16Shift_eq_zero h
  exact h

@[simp] theorem crc16Turn8_eq_zero_iff (c : Word16) : crc16Turn8 c = 0#16 ↔ c = 0#16 :=
  ⟨crc16Turn8_eq_zero, fun h => by simp [h]⟩

/-- A value in the low byte is only shifted. -/
theorem crc16Turn8_low : ∀ b : Byte, crc16Turn8 (b.setWidth 16) = b.setWidth 16 <<< 8 := by decide +kernel

/-! ### One byte -/

theorem crc16Update_eq (c : Word16) (b : Byte) : crc16Update c b = crc16Turn8 (c ^^^ (b.setWidth 16 <<< 8)) := rfl

theorem crc16Update_xor (c d : Word16) (a b : Byte) :
    crc16Update (c ^^^ d) (a ^^^ b) = crc16Update c a ^^^ crc16Update d b := by
  simp only [crc16Update_eq, ← crc16Turn8_xor]
  congr 1
  rw [BitVec.setWidth_xor, BitVec.shiftLeft_xor_distrib]
  ac_rfl

@[simp] theorem crc16Update_zero_zero : crc16Update 0#16 0#8 = 0#16 := by decide

theorem crc16Update_zero_byte (c : Word16) : crc16Update c 0#8 = crc16Turn8 c := by simp [crc16Update_eq]

/-- Two bytes of a trailer: the accumulator meets the 16-bit value they spell, high byte first. -/
theorem crc16Update_trailer (c : Word16) (hi lo : Byte) :
    crc16Update (crc16Update c hi) lo = crc16Turn8 (crc16Turn8 (c ^^^ word16 hi lo)) := by
  have hw : word16 hi lo = (hi.setWidth 16 <<< 8) ^^^ lo.setWidth 16 := by
    apply BitVec.eq_of_getLsbD_eq
    intro i hi'
    simp only [word16, BitVec.getLsbD_append, BitVec.getLsbD_xor, BitVec.getLsbD_shiftLeft,
      BitVec.getLsbD_setWidth]
    by_cases h : i < 8
    · simp [h, hi']
    · have h1 : i - 8 < 16 := by omega
      have h2 : lo.getLsbD i = false := BitVec.getLsbD_of_ge lo i (by omega)
      simp [h, hi', h1, h2]
  rw [crc16Update_eq, crc16Update_eq, hw, ← BitVec.xor_assoc, crc16Turn8_xor (c ^^^ _), crc16Turn8_low]

/-! ### Byte sequences -/

/-- The accumulator after a byte sequence, from any start. -/
def crc16From (c : Word16) (s : Bytes) : Word16 := s.foldl crc16Update c

theorem crc16_eq_from (s : Bytes) : crc16 s = crc16From 0#16 s := rfl

@[simp] theorem crc16From_nil (c : Word16) : crc16From c [] = c := rfl

@[simp] theorem crc16From_cons (c : Word16) (b : Byte) (s : Bytes) :
    crc16From c (b :: s) = crc16From (crc16Update c b) s := rfl

theorem crc16From_append (c : Word16) (s t : Bytes) : crc16From c (s ++ t) = crc16From (crc16From c s) t := by
  simp [crc16From, List.foldl_append]

theorem crc16_append (s t : Bytes) : crc16 (s ++ t) = crc16From (crc16 s) t := crc16From_append _ _ _

/-- The XOR of two sequences of one length has the XOR of their accumulators. -/
theorem crc16From_xor (s t : Bytes) (h : s.length = t.length) (c d : Word16) :
    crc16From (c ^^^ d) (List.zipWith (· ^^^ ·) s t) = crc16From c s ^^^ crc16From d t := by
  induction s generalizing t c d with
  | nil => cases t <;> simp_all
  | cons a s ih =>
    cases t with
    | nil => simp at h
    | cons b t => simpa [crc16Update_xor] using ih t (by simpa using h) (crc16Update c a) (crc16Update d b)

/-- Zero bytes keep a non-zero accumulator non-zero, and a zero one zero. -/
theorem crc16From_zeros (n : Nat) (c : Word16) : crc16From c (List.replicate n 0#8) = 0#16 ↔ c = 0#16 := by
  induction n generalizing c with
  | zero => simp
  | succ n ih => simp [List.replicate_succ, ih, crc16Update_zero_byte]

/-- The residue of a trailer (R137). -/
theorem crc16From_be16 (c t : Word16) : crc16From c (be16 t) = crc16Turn8 (crc16Turn8 (c ^^^ t)) := by
  have : word16 (t.extractLsb' 8 8) (t.extractLsb' 0 8) = t := by
    apply BitVec.eq_of_getLsbD_eq
    intro i hi
    simp only [word16, BitVec.getLsbD_append, BitVec.getLsbD_extractLsb']
    by_cases h : i < 8
    · simp [h]
    · have h1 : i - 8 < 8 := by omega
      have h2 : 8 + (i - 8) = i := by omega
      simp [h, h1, h2]
  simp [be16, crc16Update_trailer, this]

/-- Bytes after a difference never hide it (R138). -/
theorem crc16From_ne {c d : Word16} (h : c ≠ d) (s : Bytes) : crc16From c s ≠ crc16From d s := by
  induction s generalizing c d with
  | nil => exact h
  | cons b s ih =>
    refine ih fun he => h ?_
    rw [← BitVec.xor_eq_zero_iff, ← crc16Turn8_eq_zero_iff, ← crc16Update_zero_byte,
      ← BitVec.xor_eq_zero_iff.mpr he, ← crc16Update_xor, BitVec.xor_self]

/-- Two bytes give two accumulators. -/
theorem crc16Update_ne (c : Word16) {a b : Byte} (h : a ≠ b) : crc16Update c a ≠ crc16Update c b := by
  have key : ∀ d : Byte, d.setWidth 16 <<< 8 = (0#16) → d = 0#8 := by decide +kernel
  intro he
  rw [← BitVec.xor_eq_zero_iff, ← crc16Update_xor, BitVec.xor_self, crc16Update_eq, BitVec.zero_xor,
    crc16Turn8_eq_zero_iff] at he
  exact h (BitVec.xor_eq_zero_iff.mp (key _ he))

end Sys2Proof.Machine
end

