-- ==== Sys2Proof/Laws/Frame.lean ====
section
/-! SUPPORT. The byte order and the SLP frame: layout, inverse, and what the deframer's tests say of a window
(00_scope.md R8; 30_encoding.md R90 to R97; 42_slp_rx.md R166 to R173). -/

namespace Sys2Proof.Machine

/-! ### Byte order -/

@[simp] theorem be16_length (v : Word16) : (be16 v).length = 2 := rfl

@[simp] theorem word16_extract (v : Word16) : word16 (v.extractLsb' 8 8) (v.extractLsb' 0 8) = v := by
  apply BitVec.eq_of_getLsbD_eq
  intro i hi
  simp only [word16, BitVec.getLsbD_append, BitVec.getLsbD_extractLsb']
  by_cases h : i < 8
  · simp [h]
  · have h1 : i - 8 < 8 := by omega
    have h2 : 8 + (i - 8) = i := by omega
    simp [h, h1, h2]

@[simp] theorem be16_word16 (hi lo : Byte) : be16 (word16 hi lo) = [hi, lo] := by
  have h1 : (word16 hi lo).extractLsb' 8 8 = hi := by
    apply BitVec.eq_of_getLsbD_eq
    intro i hi'
    rw [BitVec.getLsbD_extractLsb', word16]
    erw [BitVec.getLsbD_append]
    have : ¬ 8 + i < 8 := by omega
    simp [this, hi']
  have h2 : (word16 hi lo).extractLsb' 0 8 = lo := by
    apply BitVec.eq_of_getLsbD_eq
    intro i hi'
    rw [BitVec.getLsbD_extractLsb', word16]
    erw [BitVec.getLsbD_append]
    simp [hi']
  rw [be16, h1, h2]

/-- `be16` of a value as its two bytes. -/
theorem be16_eq (v : Word16) : be16 v = [v.extractLsb' 8 8, v.extractLsb' 0 8] := rfl

@[simp] theorem get16_cons_succ (a : Byte) (s : Bytes) (i : Nat) : get16 (a :: s) (i + 1) = get16 s i := by
  simp [get16]

@[simp] theorem get16_cons_zero (a b : Byte) (s : Bytes) : get16 (a :: b :: s) 0 = word16 a b := rfl

/-- Reading a 16-bit field behind a prefix. -/
theorem get16_append_right (s t : Bytes) (i : Nat) : get16 (s ++ t) (s.length + i) = get16 t i := by
  induction s with
  | nil => simp
  | cons a s ih =>
    have : (a :: s).length + i = (s.length + i) + 1 := by simp only [List.length_cons]; omega
    rw [List.cons_append, this, get16_cons_succ, ih]

theorem toNat_ofNat16 {n : Nat} (h : n ≤ 65535) : (BitVec.ofNat 16 n).toNat = n := by
  simp only [BitVec.toNat_ofNat]
  omega

/-! ### The frame -/

/-- The ten header bytes written out (R90). -/
theorem slpHeader_eq (p : Packet) : slpHeader p =
    [0xBE, 0xEF, 0xED, p.dst, p.src, p.type,
      (BitVec.ofNat 16 p.body.length).extractLsb' 8 8, (BitVec.ofNat 16 p.body.length).extractLsb' 0 8, p.txid,
      byteSum [0xBE, 0xEF, 0xED, p.dst, p.src, p.type,
        (BitVec.ofNat 16 p.body.length).extractLsb' 8 8, (BitVec.ofNat 16 p.body.length).extractLsb' 0 8, p.txid]] := rfl

@[simp] theorem slpHeader_length (p : Packet) : (slpHeader p).length = 10 := rfl

theorem slpEncode_eq (p : Packet) :
    slpEncode p = slpHeader p ++ (p.body ++ be16 (crc16 (slpHeader p ++ p.body))) := by
  simp [slpEncode]

@[simp] theorem slpEncode_length (p : Packet) : (slpEncode p).length = 12 + p.body.length := by
  simp only [slpEncode_eq, List.length_append, slpHeader_length, be16_length]
  omega

/-- The length field of a frame, whatever follows the frame (R93, R99). -/
theorem slpEncode_bodySize (p : Packet) (rest : Bytes) :
    get16 (slpEncode p ++ rest) 6 = BitVec.ofNat 16 p.body.length := by
  simp [slpEncode_eq, slpHeader_eq]

/-- The trailer of a frame, whatever follows the frame (R96). -/
theorem slpEncode_trailer (p : Packet) (rest : Bytes) :
    get16 (slpEncode p ++ rest) (10 + p.body.length) = crc16 (slpHeader p ++ p.body) := by
  have h : (slpHeader p ++ p.body).length = 10 + p.body.length := by simp
  have e : slpEncode p ++ rest = (slpHeader p ++ p.body) ++ (be16 (crc16 (slpHeader p ++ p.body)) ++ rest) := by
    simp [slpEncode_eq]
  rw [e, show 10 + p.body.length = (slpHeader p ++ p.body).length + 0 by omega, get16_append_right]
  simp [be16_eq]

/-- The checked part of a frame, whatever follows the frame. -/
theorem slpEncode_take_body (p : Packet) (rest : Bytes) :
    (slpEncode p ++ rest).take (10 + p.body.length) = slpHeader p ++ p.body := by
  have h : (slpHeader p ++ p.body).length = 10 + p.body.length := by simp
  have e : slpEncode p ++ rest = (slpHeader p ++ p.body) ++ (be16 (crc16 (slpHeader p ++ p.body)) ++ rest) := by
    simp [slpEncode_eq]
  rw [e, ← h, List.take_left]

/-- `slp_decode` of a frame and whatever follows it gives back the packet (R97). -/
theorem slpDecode_slpEncode_append (p : Packet) (rest : Bytes) (h : p.body.length ≤ 65535) :
    slpDecode (slpEncode p ++ rest) = p := by
  have hb : ((slpEncode p ++ rest).drop 10).take (get16 (slpEncode p ++ rest) 6).toNat = p.body := by
    rw [slpEncode_bodySize, toNat_ofNat16 h, slpEncode_eq]
    rw [show slpHeader p ++ (p.body ++ be16 (crc16 (slpHeader p ++ p.body))) ++ rest =
      slpHeader p ++ (p.body ++ (be16 (crc16 (slpHeader p ++ p.body)) ++ rest)) by simp]
    rw [show (10 : Nat) = (slpHeader p).length from rfl, List.drop_left, List.take_left]
  unfold slpDecode
  rw [hb]
  simp [slpEncode_eq, slpHeader_eq]

/-- `slp_decode` inverts `slp_encode` (R97). -/
theorem slpDecode_slpEncode (p : Packet) (h : p.body.length ≤ 65535) : slpDecode (slpEncode p) = p := by
  simpa using slpDecode_slpEncode_append p [] h

/-- Ten bytes or more, written out. -/
theorem exists_ten {w : Bytes} (h : 10 ≤ w.length) :
    ∃ b0 b1 b2 b3 b4 b5 b6 b7 b8 b9 t, w = b0 :: b1 :: b2 :: b3 :: b4 :: b5 :: b6 :: b7 :: b8 :: b9 :: t := by
  match w, h with
  | b0 :: b1 :: b2 :: b3 :: b4 :: b5 :: b6 :: b7 :: b8 :: b9 :: t, _ =>
    exact ⟨b0, b1, b2, b3, b4, b5, b6, b7, b8, b9, t, rfl⟩

/-- Bytes that pass the signature, header-sum, length and CRC tests begin with the frame of what they decode to. -/
theorem eq_slpEncode_of_tests {w : Bytes} (hlen : 12 + (get16 w 6).toNat ≤ w.length) (hsig : w.take 3 = slpSig)
    (hsum : byteSum (w.take 9) = w.getD 9 0)
    (hcrc : crcAccept (w.take (10 + (get16 w 6).toNat)) (get16 w (10 + (get16 w 6).toNat)) = true) :
    w = slpEncode (slpDecode w) ++ w.drop (12 + (get16 w 6).toNat) ∧
      (slpDecode w).body.length = (get16 w 6).toNat := by
  obtain ⟨b0, b1, b2, b3, b4, b5, b6, b7, b8, b9, t, rfl⟩ := exists_ten (w := w) (by omega)
  have hn : (get16 (b0 :: b1 :: b2 :: b3 :: b4 :: b5 :: b6 :: b7 :: b8 :: b9 :: t) 6).toNat = (word16 b6 b7).toNat := by
    simp
  rw [hn] at hlen hcrc ⊢
  generalize hN : (word16 b6 b7).toNat = n at *
  simp only [List.length_cons] at hlen
  have hbody : (slpDecode (b0 :: b1 :: b2 :: b3 :: b4 :: b5 :: b6 :: b7 :: b8 :: b9 :: t)).body = t.take n := by
    simp [slpDecode, hN]
  have hbl : (t.take n).length = n := by simp; omega
  refine ⟨?_, by rw [hbody, hbl]⟩
  simp only [List.take_succ_cons, List.take_zero, slpSig, List.cons.injEq, and_true] at hsig
  obtain ⟨rfl, rfl, rfl⟩ := hsig
  have h9 : b9 = byteSum [0xBE, 0xEF, 0xED, b3, b4, b5, b6, b7, b8] := by
    simpa using hsum.symm
  have hw : BitVec.ofNat 16 n = word16 b6 b7 := by rw [← hN]; simp
  have hhdr : slpHeader (slpDecode (0xBE :: 0xEF :: 0xED :: b3 :: b4 :: b5 :: b6 :: b7 :: b8 :: b9 :: t)) =
      [0xBE, 0xEF, 0xED, b3, b4, b5, b6, b7, b8, b9] := by
    unfold slpHeader
    rw [hbody, hbl, hw, be16_word16, h9]
    simp [slpDecode, slpSig]
  -- the trailer is the two bytes behind the body
  obtain ⟨c0, c1, r, hr⟩ : ∃ c0 c1 r, t.drop n = c0 :: c1 :: r := by
    have : 2 ≤ (t.drop n).length := by simp; omega
    match hq : t.drop n, this with
    | c0 :: c1 :: r, _ => exact ⟨c0, c1, r, rfl⟩
  have ht : t = t.take n ++ (c0 :: c1 :: r) := by rw [← hr, List.take_append_drop]
  have htake : (0xBE :: 0xEF :: 0xED :: b3 :: b4 :: b5 :: b6 :: b7 :: b8 :: b9 :: t).take (10 + n) =
      [0xBE, 0xEF, 0xED, b3, b4, b5, b6, b7, b8, b9] ++ t.take n := by
    rw [show 10 + n = n + 10 by omega]; simp
  have hget : get16 (0xBE :: 0xEF :: 0xED :: b3 :: b4 :: b5 :: b6 :: b7 :: b8 :: b9 :: t) (10 + n) = word16 c0 c1 := by
    rw [show (0xBE :: 0xEF :: 0xED :: b3 :: b4 :: b5 :: b6 :: b7 :: b8 :: b9 :: t : Bytes) =
      ([0xBE, 0xEF, 0xED, b3, b4, b5, b6, b7, b8, b9] ++ t.take n) ++ (c0 :: c1 :: r) by
        simp only [List.cons_append, List.nil_append]; rw [← ht]]
    rw [show 10 + n = ([0xBE, 0xEF, 0xED, b3, b4, b5, b6, b7, b8, b9] ++ t.take n : Bytes).length + 0 by
      simp [hbl]; omega]
    rw [get16_append_right]
    rfl
  rw [htake, hget] at hcrc
  have hcrc' : crc16 ([0xBE, 0xEF, 0xED, b3, b4, b5, b6, b7, b8, b9] ++ t.take n) = word16 c0 c1 := by
    simpa [crcAccept] using hcrc
  have hdrop : (0xBE :: 0xEF :: 0xED :: b3 :: b4 :: b5 :: b6 :: b7 :: b8 :: b9 :: t : Bytes).drop (12 + n) = r := by
    rw [show 12 + n = (2 + n) + 10 by omega]
    simp only [List.drop_succ_cons]
    rw [show 2 + n = n + 2 by omega, ← List.drop_drop, hr]
    rfl
  rw [slpEncode_eq, hhdr, hbody, hdrop, hcrc', be16_word16]
  simp only [List.cons_append, List.nil_append, List.append_assoc]
  rw [← ht]

/-! ### The deframer's tests -/

@[simp] theorem examine_nil (maxBody : Nat) : examine maxBody [] = .wait := rfl

/-- The tests of one turn as they stand (R166). -/
theorem examine_eq (maxBody : Nat) (win : Bytes) :
    examine maxBody win =
      if win.length = 0 then .wait
      else if win.take (min win.length 3) ≠ slpSig.take (min win.length 3) then .reject
      else if win.length < 10 then .wait
      else if byteSum (win.take 9) ≠ win.getD 9 0 then .reject
      else if maxBody < (get16 win 6).toNat then .reject
      else if win.length < 12 + (get16 win 6).toNat then .wait
      else if crcAccept (win.take (10 + (get16 win 6).toNat)) (get16 win (10 + (get16 win 6).toNat)) = false
        then .reject
      else .accept (slpDecode win) := rfl

/-- A candidate is accepted exactly when the window begins with a frame whose body is not too long (R166, R170). -/
theorem examine_eq_accept_iff {maxBody : Nat} (hmax : maxBody ≤ 65535) (win : Bytes) (p : Packet) :
    examine maxBody win = .accept p ↔ p.body.length ≤ maxBody ∧ ∃ rest, win = slpEncode p ++ rest := by
  constructor
  · intro h
    rw [examine_eq] at h
    split_ifs at h with h0 h1 h2 h3 h4 h5 h6
    obtain ⟨hw, hl⟩ := eq_slpEncode_of_tests (w := win) (by omega)
      (by
        have : min win.length 3 = 3 := by omega
        rw [this] at h1
        simpa [slpSig] using h1)
      (by simpa using h3) (by simpa using h6)
    obtain rfl : slpDecode win = p := by simpa using h
    exact ⟨by omega, _, hw⟩
  · rintro ⟨hp, rest, rfl⟩
    have hl : (slpEncode p ++ rest).length = 12 + p.body.length + rest.length := by simp
    have hn : (get16 (slpEncode p ++ rest) 6).toNat = p.body.length := by
      rw [slpEncode_bodySize, toNat_ofNat16 (by omega)]
    have hmin : min (slpEncode p ++ rest).length 3 = 3 := by omega
    have hsig : (slpEncode p ++ rest).take 3 = slpSig.take 3 := by simp [slpEncode_eq, slpHeader_eq, slpSig]
    have hsum : byteSum ((slpEncode p ++ rest).take 9) = (slpEncode p ++ rest).getD 9 0 := by
      simp [slpEncode_eq, slpHeader_eq]
    have hcrc : crcAccept ((slpEncode p ++ rest).take (10 + p.body.length))
        (get16 (slpEncode p ++ rest) (10 + p.body.length)) = true := by
      rw [slpEncode_take_body, slpEncode_trailer]
      simp [crcAccept]
    rw [examine_eq, hn, hmin, hcrc, if_neg (by omega), if_neg (by simp [hsig]), if_neg (by omega),
      if_neg (by simpa using hsum), if_neg (by omega), if_neg (by omega), if_neg (by simp),
      slpDecode_slpEncode_append p rest (by omega)]

/-- The first bytes of a header wait for the rest of it (R166). -/
theorem examine_header_take (maxBody : Nat) (p : Packet) {k : Nat} (hk : k < 10) :
    examine maxBody ((slpHeader p).take k) = .wait := by
  rw [slpHeader_eq]
  interval_cases k <;> rfl

/-- Behind a right header everything depends on the bytes after it: a body size over the bound is rejected at once, else
body and trailer are waited for and the trailer decides (R166, R169, R170). -/
theorem examine_header_append (maxBody : Nat) (p : Packet) (hp : p.body.length ≤ 65535) (t : Bytes) :
    examine maxBody (slpHeader p ++ t) =
      if maxBody < p.body.length then .reject
      else if t.length < p.body.length + 2 then .wait
      else if crcAccept (slpHeader p ++ t.take p.body.length) (get16 t p.body.length) = false then .reject
      else .accept { p with body := t.take p.body.length } := by
  have hl : (slpHeader p ++ t).length = 10 + t.length := by simp
  have hmin : min (slpHeader p ++ t).length 3 = 3 := by omega
  have hn : (get16 (slpHeader p ++ t) 6).toNat = p.body.length := by
    simp only [slpHeader_eq, List.cons_append, get16_cons_succ, get16_cons_zero, word16_extract]
    exact toNat_ofNat16 hp
  have hsig : (slpHeader p ++ t).take 3 = slpSig.take 3 := by simp [slpHeader_eq, slpSig]
  have hsum : byteSum ((slpHeader p ++ t).take 9) = (slpHeader p ++ t).getD 9 0 := by simp [slpHeader_eq]
  have htake : (slpHeader p ++ t).take (10 + p.body.length) = slpHeader p ++ t.take p.body.length := by
    rw [← slpHeader_length p, List.take_length_add_append]
  have htrail : get16 (slpHeader p ++ t) (10 + p.body.length) = get16 t p.body.length := by
    rw [← slpHeader_length p, get16_append_right]
  have hdec : slpDecode (slpHeader p ++ t) = { p with body := t.take p.body.length } := by
    simp only [slpDecode, hn]
    simp [slpHeader_eq]
  rw [examine_eq, hmin, hn, htake, htrail, hdec, hl, if_neg (by omega), if_neg (by simp [hsig]), if_neg (by omega),
    if_neg (by simpa using hsum)]
  exact if_congr Iff.rfl rfl (if_congr (by omega) rfl rfl)

/-- A proper prefix of a frame waits for its next byte (R166, R173). -/
theorem examine_prefix_of_frame {maxBody : Nat} (hmax : maxBody ≤ 65535) (p : Packet) (hp : p.body.length ≤ maxBody)
    {k : Nat} (hk : k < 12 + p.body.length) : examine maxBody ((slpEncode p).take k) = .wait := by
  rw [slpEncode_eq]
  by_cases h10 : k < 10
  · rw [List.take_append_of_le_length (by simp; omega)]
    exact examine_header_take maxBody p h10
  · obtain ⟨j, rfl⟩ : ∃ j, k = 10 + j := ⟨k - 10, by omega⟩
    rw [show 10 + j = (slpHeader p).length + j from rfl, List.take_length_add_append,
      examine_header_append maxBody p (by omega), if_neg (by omega), if_pos (by simp; omega)]

/-- A window that waits is empty or a proper prefix of a possible frame (R173). -/
theorem examine_wait_bound {maxBody : Nat} {win : Bytes} (h : examine maxBody win = .wait) :
    win.length ≤ 11 + maxBody := by
  rw [examine_eq] at h
  split_ifs at h <;> omega

/-- A rejected window is not empty, so dropping its first byte makes it shorter. -/
theorem examine_reject_pos {maxBody : Nat} {win : Bytes} (h : examine maxBody win = .reject) : 0 < win.length := by
  rcases Nat.eq_zero_or_pos win.length with h0 | h0
  · rw [List.length_eq_zero_iff.mp h0] at h
    simp at h
  · exact h0

/-- An accepted packet's frame was in the window. -/
theorem examine_accept_length {maxBody : Nat} {win : Bytes} {p : Packet} (h : examine maxBody win = .accept p) :
    0 < win.length := by
  rcases Nat.eq_zero_or_pos win.length with h0 | h0
  · rw [List.length_eq_zero_iff.mp h0] at h
    simp at h
  · exact h0

end Sys2Proof.Machine
end

