-- ==== Sys2Proof/Laws/Encoding.lean ====
section
/-! SUPPORT. Small lemmas of the decoders and the encoder (30_encoding.md R90 to R108). -/

namespace Sys2Proof

open Machine

/-! ### Well-formed lengths -/

@[simp] theorem bodyFits_iff (body : Bytes) : bodyFits body = true ↔ body.length ≤ 65535 :=
  decide_eq_true_iff

@[simp] theorem fragmentFits_iff (data : Bytes) : fragmentFits data = true ↔ 3 + data.length ≤ 65535 :=
  decide_eq_true_iff

/-! ### Operation records -/

/-- One record and nothing behind it. -/
theorem decode_of_decodeRecord {bytes : Bytes} {i : Instr} (h : decodeRecord bytes = .ok (i, [])) :
    decode .record bytes = .ok i := by
  simp only [decode, h]

/-- The table has one row a code (R107). -/
theorem opTable_codes_distinct : (opTable.map OpRow.code).Nodup := by decide

@[simp] theorem encodeSized_length (s : Bytes) : (encodeSized s).length = 2 + s.length := by
  simp only [encodeSized, List.length_append, be16_length]

theorem be16_ofNat_eq (n : Nat) : ∃ hi lo : Byte, be16 (BitVec.ofNat 16 n) = [hi, lo] ∧
    word16 hi lo = BitVec.ofNat 16 n := ⟨_, _, rfl, word16_extract _⟩

/-- A sized operand is read back, with what follows it. -/
theorem decodeSized_encodeSized (code : Byte) (mk : Bytes → Instr) (s rest : Bytes) (h : s.length ≤ 65535) :
    decodeSized code mk (encodeSized s ++ rest) = .ok (mk s, rest) := by
  obtain ⟨hi, lo, he, hw⟩ := be16_ofNat_eq s.length
  have hn : (BitVec.ofNat 16 s.length).toNat = s.length := toNat_ofNat16 h
  have h0 : ¬ s.length + rest.length < s.length := by omega
  simp only [encodeSized, he, decodeSized, List.cons_append, List.nil_append, hw, hn, List.length_append, if_neg h0,
    List.take_left, List.drop_left]

/-- What a sized operand decodes to encodes to the bytes that were read. -/
theorem decodeSized_ok {code : Byte} {mk : Bytes → Instr} {bytes rest : Bytes} {i : Instr}
    (h : decodeSized code mk bytes = .ok (i, rest)) :
    ∃ s : Bytes, s.length ≤ 65535 ∧ i = mk s ∧ encodeSized s ++ rest = bytes := by
  match bytes, h with
  | hi :: lo :: r, h =>
    simp only [decodeSized] at h
    split at h
    · cases h
    · rename_i hlen
      have hl : (r.take (word16 hi lo).toNat).length = (word16 hi lo).toNat := by simp; omega
      have hb := (word16 hi lo).isLt
      cases h
      refine ⟨r.take (word16 hi lo).toNat, by omega, rfl, ?_⟩
      rw [encodeSized, hl]
      simp

/-- A sized operand that ends too early is an error (R108). -/
theorem decodeSized_take (code : Byte) (mk : Bytes → Instr) (s : Bytes) (h : s.length ≤ 65535) {k : Nat}
    (hk : k < (encodeSized s).length) :
    decodeSized code mk ((encodeSized s).take k) = .error (.truncatedRecord code) := by
  obtain ⟨hi, lo, he, hw⟩ := be16_ofNat_eq s.length
  have hn : (BitVec.ofNat 16 s.length).toNat = s.length := toNat_ofNat16 h
  simp only [encodeSized_length] at hk
  match k, hk with
  | 0, _ => rfl
  | 1, _ => simp [encodeSized, he, decodeSized]
  | k + 2, hk =>
    have : min k s.length < s.length := by omega
    simp [encodeSized, he, decodeSized, hw, hn, this]

/-- The row of an operation code is a row of the table (R107). -/
theorem opOfCode_eq_some {code : Byte} {row : OpRow} (h : opOfCode code = some row) :
    row ∈ opTable ∧ row.code = code := by
  unfold opOfCode at h
  exact ⟨List.mem_of_find?_eq_some h, by simpa using List.find?_some h⟩

theorem decodeH1_eq_ok {code : Byte} {mk : Byte → Instr} {bytes rest : Bytes} {i : Instr}
    (h : decodeH1 code mk bytes = .ok (i, rest)) : ∃ b, bytes = b :: rest ∧ i = mk b := by
  match bytes, h with
  | b :: r, h => cases h; exact ⟨b, rfl, rfl⟩

theorem decodeH2_eq_ok {code : Byte} {mk : Word16 → Instr} {bytes rest : Bytes} {i : Instr}
    (h : decodeH2 code mk bytes = .ok (i, rest)) : ∃ v, bytes = be16 v ++ rest ∧ i = mk v := by
  match bytes, h with
  | hi :: lo :: r, h => cases h; exact ⟨word16 hi lo, by simp, rfl⟩

theorem decodeHS_eq_ok {code : Byte} {bytes rest : Bytes} {i : Instr} (h : decodeHS code bytes = .ok (i, rest)) :
    ∃ p : Packet, p.body.length ≤ 65535 ∧
      bytes = [p.dst, p.src, p.type, p.txid] ++ encodeSized p.body ++ rest ∧ i = .slpTx p := by
  match bytes, h with
  | a :: b :: c :: d :: r, h =>
    obtain ⟨s, hs, rfl, he⟩ := decodeSized_ok (mk := fun body => .slpTx ⟨a, b, c, d, body⟩) h
    exact ⟨⟨a, b, c, d, s⟩, hs, by simp [← he], rfl⟩

theorem decodeHP_eq_ok {code : Byte} {bytes rest : Bytes} {i : Instr} (h : decodeHP code bytes = .ok (i, rest)) :
    ∃ txid opts s, s.length ≤ 65535 ∧ bytes = [txid, opts] ++ encodeSized s ++ rest ∧ i = .padpSend txid opts s := by
  match bytes, h with
  | a :: b :: r, h =>
    obtain ⟨s, hs, rfl, he⟩ := decodeSized_ok (mk := fun payload => .padpSend a b payload) h
    exact ⟨a, b, s, hs, by simp [← he], rfl⟩

/-- What a trace holds are operation records. -/
theorem space_of_decodeRecord {bytes rest : Bytes} {i : Instr} (h : decodeRecord bytes = .ok (i, rest)) :
    i.space = .record := by
  match bytes, h with
  | code :: tail, h =>
    simp only [decodeRecord] at h
    cases ho : opOfCode code with
    | none => rw [ho] at h; cases h; rfl
    | some row =>
      rw [ho] at h
      obtain ⟨hm, -⟩ := opOfCode_eq_some ho
      simp only [opTable, List.mem_cons, List.not_mem_nil, or_false] at hm
      rcases hm with rfl | rfl | rfl | rfl | rfl | rfl | rfl | rfl | rfl | rfl | rfl | rfl | rfl | rfl <;>
        simp only [decodeOperands] at h
      case inr.inr.inl => obtain ⟨b, -, rfl⟩ := decodeH1_eq_ok h; rfl
      case inr.inr.inr.inr.inl => obtain ⟨v, -, rfl⟩ := decodeH2_eq_ok h; rfl
      case inr.inr.inr.inr.inr.inl => obtain ⟨p, -, -, rfl⟩ := decodeHS_eq_ok h; rfl
      case inr.inr.inr.inr.inr.inr.inl => obtain ⟨a, b, s, -, -, rfl⟩ := decodeHP_eq_ok h; rfl
      case inr.inr.inr.inr.inr.inr.inr.inr.inl => obtain ⟨b, -, rfl⟩ := decodeH1_eq_ok h; rfl
      all_goals (cases h; rfl)

/-- What is left of a trace behind a record is the end of it. -/
theorem rest_suffix_of_decodeRecord {bytes rest : Bytes} {i : Instr} (h : decodeRecord bytes = .ok (i, rest)) :
    rest <:+ bytes := by
  match bytes, h with
  | code :: tail, h =>
    simp only [decodeRecord] at h
    cases ho : opOfCode code with
    | none => rw [ho] at h; cases h; exact List.nil_suffix
    | some row =>
      rw [ho] at h
      obtain ⟨hm, -⟩ := opOfCode_eq_some ho
      refine List.IsSuffix.trans ?_ (List.suffix_cons code tail)
      simp only [opTable, List.mem_cons, List.not_mem_nil, or_false] at hm
      rcases hm with rfl | rfl | rfl | rfl | rfl | rfl | rfl | rfl | rfl | rfl | rfl | rfl | rfl | rfl <;>
        simp only [decodeOperands] at h
      case inr.inr.inl => obtain ⟨b, rfl, -⟩ := decodeH1_eq_ok h; exact List.suffix_cons _ _
      case inr.inr.inr.inr.inl => obtain ⟨v, rfl, -⟩ := decodeH2_eq_ok h; exact List.suffix_append _ _
      case inr.inr.inr.inr.inr.inl => obtain ⟨p, -, rfl, -⟩ := decodeHS_eq_ok h; exact List.suffix_append _ _
      case inr.inr.inr.inr.inr.inr.inl => obtain ⟨a, b, s, -, rfl, -⟩ := decodeHP_eq_ok h; exact List.suffix_append _ _
      case inr.inr.inr.inr.inr.inr.inr.inr.inl => obtain ⟨b, rfl, -⟩ := decodeH1_eq_ok h; exact List.suffix_cons _ _
      all_goals (cases h; exact List.suffix_rfl)

/-! ### Fragments -/

/-- The header fields of a `flags` byte (R100). -/
theorem mkFlags_fields : ∀ (first last ack : Bool) (rsv : BitVec 5),
    flagFirst (mkFlags first last ack rsv) = first ∧ flagLast (mkFlags first last ack rsv) = last ∧
      flagAck (mkFlags first last ack rsv) = ack ∧ flagRsv (mkFlags first last ack rsv) = rsv := by
  decide +kernel

/-- A `flags` byte is its fields (R100). -/
theorem mkFlags_eta : ∀ flags : Byte,
    mkFlags (flagFirst flags) (flagLast flags) (flagAck flags) (flagRsv flags) = flags := by
  decide +kernel

/-- `flags & 0xE0` by its fields (R102). -/
theorem flags_tag : ∀ flags : Byte, flags &&& 0xE0 = mkFlags (flagFirst flags) (flagLast flags) (flagAck flags) 0 := by
  decide +kernel

@[simp] theorem mkFragment_length (flags : Byte) (size : Word16) (data : Bytes) :
    (mkFragment flags size data).length = 3 + data.length := by
  simp only [mkFragment, List.length_cons, List.length_append, be16_length]
  omega

/-- A fragment's header is read back (R100). -/
theorem decodeFragment_mkFragment (txid flags : Byte) (size : Word16) (data : Bytes) :
    decodeFragment txid (mkFragment flags size data) = .ok (fragmentOfFlags txid flags size data) := by
  simp [decodeFragment, mkFragment, be16_eq]

/-- The kind of a fragment by its three tag bits (R102). -/
theorem fragmentOfFlags_eq (txid flags : Byte) (size : Word16) (data : Bytes) :
    fragmentOfFlags txid flags size data =
      match flagFirst flags, flagLast flags, flagAck flags with
      | true, false, false => .padpDataFirst txid (flagRsv flags) size data
      | true, true, ack => .padpDataOnly txid ack (flagRsv flags) size data
      | false, false, false => .padpDataMid txid (flagRsv flags) size data
      | false, true, ack => .padpDataLast txid ack (flagRsv flags) size data
      | false, false, true => .padpAck txid (flagRsv flags) size data
      | true, false, true => .padpIllegal txid (flagRsv flags) size data := by
  simp only [fragmentOfFlags, flags_tag]
  cases flagFirst flags <;> cases flagLast flags <;> cases flagAck flags <;> rfl

/-- The encoder's fragment is the bytes its header was read from (R100, R104). -/
theorem encode_fragmentOfFlags (txid flags : Byte) (size : Word16) (data : Bytes) :
    encode (fragmentOfFlags txid flags size data) = mkFragment flags size data := by
  rw [fragmentOfFlags_eq]
  have h := mkFlags_eta flags
  revert h
  cases flagFirst flags <;> cases flagLast flags <;> cases flagAck flags <;> intro h <;> simp [encode, h]

theorem space_fragmentOfFlags (txid flags : Byte) (size : Word16) (data : Bytes) :
    (fragmentOfFlags txid flags size data).space = .fragment txid := by
  rw [fragmentOfFlags_eq]
  cases flagFirst flags <;> cases flagLast flags <;> cases flagAck flags <;> rfl

theorem wf_fragmentOfFlags (txid flags : Byte) (size : Word16) (data : Bytes) :
    (fragmentOfFlags txid flags size data).wf = fragmentFits data := by
  rw [fragmentOfFlags_eq]
  cases flagFirst flags <;> cases flagLast flags <;> cases flagAck flags <;> rfl

/-- A fragment instruction from its header: the row its tag bits name (R102). -/
theorem decodeFragment_of_fields (txid : Byte) (first last ack : Bool) (rsv : BitVec 5) (size : Word16) (data : Bytes) :
    decodeFragment txid (mkFragment (mkFlags first last ack rsv) size data) =
      .ok (match first, last, ack with
        | true, false, false => .padpDataFirst txid rsv size data
        | true, true, ack => .padpDataOnly txid ack rsv size data
        | false, false, false => .padpDataMid txid rsv size data
        | false, true, ack => .padpDataLast txid ack rsv size data
        | false, false, true => .padpAck txid rsv size data
        | true, false, true => .padpIllegal txid rsv size data) := by
  rw [decodeFragment_mkFragment, fragmentOfFlags_eq]
  obtain ⟨h1, h2, h3, h4⟩ := mkFlags_fields first last ack rsv
  rw [h1, h2, h3, h4]

/-! ### Frames -/

/-- A frame is read back (R90, R97). -/
theorem decodeFrame_slpEncode (p : Packet) (h : p.body.length ≤ 65535) :
    decodeFrame (slpEncode p) = .ok (.slpFrame p) := by
  have hn : (get16 (slpEncode p) 6).toNat = p.body.length := by
    have := slpEncode_bodySize p []
    rw [List.append_nil] at this
    rw [this, toNat_ofNat16 h]
  have hsig : (slpEncode p).take 3 = slpSig := by simp [slpEncode_eq, slpHeader_eq, slpSig]
  have hsum : byteSum ((slpEncode p).take 9) = (slpEncode p).getD 9 0 := by simp [slpEncode_eq, slpHeader_eq]
  have hcrc : crcAccept ((slpEncode p).take (10 + p.body.length)) (get16 (slpEncode p) (10 + p.body.length)) = true := by
    have h1 := slpEncode_take_body p []
    have h2 := slpEncode_trailer p []
    rw [List.append_nil] at h1 h2
    rw [h1, h2]
    simp [crcAccept]
  unfold decodeFrame
  simp only [hn, hcrc, slpEncode_length]
  rw [if_neg (by omega), if_neg (by simp [hsig]), if_neg (by simpa using hsum), if_neg (by omega), if_neg (by simp),
    slpDecode_slpEncode p h]

/-- What a frame decodes to encodes to the bytes that were read (R90). -/
theorem decodeFrame_ok {f : Bytes} {i : Instr} (h : decodeFrame f = .ok i) :
    ∃ p : Packet, i = .slpFrame p ∧ p.body.length ≤ 65535 ∧ f = slpEncode p := by
  simp only [decodeFrame] at h
  split_ifs at h with h1 h2 h3 h4 h5
  obtain ⟨hw, hl⟩ := eq_slpEncode_of_tests (w := f) (by omega) (by simpa using h2) (by simpa using h3)
    (by simpa using h5)
  have hb := (get16 f 6).isLt
  have hd : f.drop (12 + (get16 f 6).toNat) = [] := List.drop_of_length_le (by omega)
  rw [hd, List.append_nil] at hw
  cases h
  exact ⟨slpDecode f, rfl, by omega, hw⟩

end Sys2Proof
end

