-- ==== Sys2Proof/Laws/State.lean ====
section
/-! SUPPORT. What each named update does to each field of the state, one lemma per field per update. -/

namespace Sys2Proof.Machine

/-! ### `State.answer` -/

@[simp] theorem answer_cfg (s : State) (st : Status) (d : ReplyData) : (s.answer st d).cfg = s.cfg := rfl
@[simp] theorem answer_crc (s : State) (st : Status) (d : ReplyData) : (s.answer st d).crc = s.crc := rfl
@[simp] theorem answer_win (s : State) (st : Status) (d : ReplyData) : (s.answer st d).win = s.win := rfl
@[simp] theorem answer_closed (s : State) (st : Status) (d : ReplyData) : (s.answer st d).closed = s.closed := rfl
@[simp] theorem answer_txState (s : State) (st : Status) (d : ReplyData) :
    (s.answer st d).txState = s.txState := rfl
@[simp] theorem answer_txTxid (s : State) (st : Status) (d : ReplyData) : (s.answer st d).txTxid = s.txTxid := rfl
@[simp] theorem answer_txAckreq (s : State) (st : Status) (d : ReplyData) :
    (s.answer st d).txAckreq = s.txAckreq := rfl
@[simp] theorem answer_txBuf (s : State) (st : Status) (d : ReplyData) : (s.answer st d).txBuf = s.txBuf := rfl
@[simp] theorem answer_txOff (s : State) (st : Status) (d : ReplyData) : (s.answer st d).txOff = s.txOff := rfl
@[simp] theorem answer_txTimer (s : State) (st : Status) (d : ReplyData) :
    (s.answer st d).txTimer = s.txTimer := rfl
@[simp] theorem answer_txRetries (s : State) (st : Status) (d : ReplyData) :
    (s.answer st d).txRetries = s.txRetries := rfl
@[simp] theorem answer_rxState (s : State) (st : Status) (d : ReplyData) :
    (s.answer st d).rxState = s.rxState := rfl
@[simp] theorem answer_rxTxid (s : State) (st : Status) (d : ReplyData) : (s.answer st d).rxTxid = s.rxTxid := rfl
@[simp] theorem answer_rxTotal (s : State) (st : Status) (d : ReplyData) :
    (s.answer st d).rxTotal = s.rxTotal := rfl
@[simp] theorem answer_rxBuf (s : State) (st : Status) (d : ReplyData) : (s.answer st d).rxBuf = s.rxBuf := rfl
@[simp] theorem answer_trace (s : State) (st : Status) (d : ReplyData) : (s.answer st d).trace = s.trace := rfl
@[simp] theorem answer_out (s : State) (st : Status) (d : ReplyData) : (s.answer st d).out = s.out := rfl
@[simp] theorem answer_reply (s : State) (st : Status) (d : ReplyData) :
    (s.answer st d).reply = some ⟨st, d⟩ := rfl

/-! ### `State.emit` -/

@[simp] theorem emit_cfg (s : State) (e : OutEvent) : (s.emit e).cfg = s.cfg := rfl
@[simp] theorem emit_crc (s : State) (e : OutEvent) : (s.emit e).crc = s.crc := rfl
@[simp] theorem emit_win (s : State) (e : OutEvent) : (s.emit e).win = s.win := rfl
@[simp] theorem emit_closed (s : State) (e : OutEvent) : (s.emit e).closed = s.closed := rfl
@[simp] theorem emit_txState (s : State) (e : OutEvent) : (s.emit e).txState = s.txState := rfl
@[simp] theorem emit_txTxid (s : State) (e : OutEvent) : (s.emit e).txTxid = s.txTxid := rfl
@[simp] theorem emit_txAckreq (s : State) (e : OutEvent) : (s.emit e).txAckreq = s.txAckreq := rfl
@[simp] theorem emit_txBuf (s : State) (e : OutEvent) : (s.emit e).txBuf = s.txBuf := rfl
@[simp] theorem emit_txOff (s : State) (e : OutEvent) : (s.emit e).txOff = s.txOff := rfl
@[simp] theorem emit_txTimer (s : State) (e : OutEvent) : (s.emit e).txTimer = s.txTimer := rfl
@[simp] theorem emit_txRetries (s : State) (e : OutEvent) : (s.emit e).txRetries = s.txRetries := rfl
@[simp] theorem emit_rxState (s : State) (e : OutEvent) : (s.emit e).rxState = s.rxState := rfl
@[simp] theorem emit_rxTxid (s : State) (e : OutEvent) : (s.emit e).rxTxid = s.rxTxid := rfl
@[simp] theorem emit_rxTotal (s : State) (e : OutEvent) : (s.emit e).rxTotal = s.rxTotal := rfl
@[simp] theorem emit_rxBuf (s : State) (e : OutEvent) : (s.emit e).rxBuf = s.rxBuf := rfl
@[simp] theorem emit_trace (s : State) (e : OutEvent) : (s.emit e).trace = s.trace := rfl
@[simp] theorem emit_out (s : State) (e : OutEvent) : (s.emit e).out = s.out ++ [e] := rfl
@[simp] theorem emit_reply (s : State) (e : OutEvent) : (s.emit e).reply = s.reply := rfl

/-! ### `State.slpWrite` -/

@[simp] theorem slpWrite_cfg (s : State) (p : Packet) : (s.slpWrite p).cfg = s.cfg := rfl
@[simp] theorem slpWrite_crc (s : State) (p : Packet) : (s.slpWrite p).crc = s.crc := rfl
@[simp] theorem slpWrite_win (s : State) (p : Packet) : (s.slpWrite p).win = s.win := rfl
@[simp] theorem slpWrite_closed (s : State) (p : Packet) : (s.slpWrite p).closed = s.closed := rfl
@[simp] theorem slpWrite_txState (s : State) (p : Packet) : (s.slpWrite p).txState = s.txState := rfl
@[simp] theorem slpWrite_txTxid (s : State) (p : Packet) : (s.slpWrite p).txTxid = s.txTxid := rfl
@[simp] theorem slpWrite_txAckreq (s : State) (p : Packet) : (s.slpWrite p).txAckreq = s.txAckreq := rfl
@[simp] theorem slpWrite_txBuf (s : State) (p : Packet) : (s.slpWrite p).txBuf = s.txBuf := rfl
@[simp] theorem slpWrite_txOff (s : State) (p : Packet) : (s.slpWrite p).txOff = s.txOff := rfl
@[simp] theorem slpWrite_txTimer (s : State) (p : Packet) : (s.slpWrite p).txTimer = s.txTimer := rfl
@[simp] theorem slpWrite_txRetries (s : State) (p : Packet) : (s.slpWrite p).txRetries = s.txRetries := rfl
@[simp] theorem slpWrite_rxState (s : State) (p : Packet) : (s.slpWrite p).rxState = s.rxState := rfl
@[simp] theorem slpWrite_rxTxid (s : State) (p : Packet) : (s.slpWrite p).rxTxid = s.rxTxid := rfl
@[simp] theorem slpWrite_rxTotal (s : State) (p : Packet) : (s.slpWrite p).rxTotal = s.rxTotal := rfl
@[simp] theorem slpWrite_rxBuf (s : State) (p : Packet) : (s.slpWrite p).rxBuf = s.rxBuf := rfl
@[simp] theorem slpWrite_trace (s : State) (p : Packet) : (s.slpWrite p).trace = s.trace := rfl
@[simp] theorem slpWrite_out (s : State) (p : Packet) :
    (s.slpWrite p).out = s.out ++ [.txBytes (slpEncode p)] := rfl
@[simp] theorem slpWrite_reply (s : State) (p : Packet) : (s.slpWrite p).reply = s.reply := rfl

/-! ### `State.endSend` -/

@[simp] theorem endSend_cfg (s : State) (c : Status) : (s.endSend c).cfg = s.cfg := rfl
@[simp] theorem endSend_crc (s : State) (c : Status) : (s.endSend c).crc = s.crc := rfl
@[simp] theorem endSend_win (s : State) (c : Status) : (s.endSend c).win = s.win := rfl
@[simp] theorem endSend_closed (s : State) (c : Status) : (s.endSend c).closed = s.closed := rfl
@[simp] theorem endSend_txState (s : State) (c : Status) : (s.endSend c).txState = .idle := rfl
@[simp] theorem endSend_txTxid (s : State) (c : Status) : (s.endSend c).txTxid = s.txTxid := rfl
@[simp] theorem endSend_txAckreq (s : State) (c : Status) : (s.endSend c).txAckreq = s.txAckreq := rfl
@[simp] theorem endSend_txBuf (s : State) (c : Status) : (s.endSend c).txBuf = s.txBuf := rfl
@[simp] theorem endSend_txOff (s : State) (c : Status) : (s.endSend c).txOff = s.txOff := rfl
@[simp] theorem endSend_txTimer (s : State) (c : Status) : (s.endSend c).txTimer = s.txTimer := rfl
@[simp] theorem endSend_txRetries (s : State) (c : Status) : (s.endSend c).txRetries = s.txRetries := rfl
@[simp] theorem endSend_rxState (s : State) (c : Status) : (s.endSend c).rxState = s.rxState := rfl
@[simp] theorem endSend_rxTxid (s : State) (c : Status) : (s.endSend c).rxTxid = s.rxTxid := rfl
@[simp] theorem endSend_rxTotal (s : State) (c : Status) : (s.endSend c).rxTotal = s.rxTotal := rfl
@[simp] theorem endSend_rxBuf (s : State) (c : Status) : (s.endSend c).rxBuf = s.rxBuf := rfl
@[simp] theorem endSend_trace (s : State) (c : Status) : (s.endSend c).trace = s.trace := rfl
@[simp] theorem endSend_out (s : State) (c : Status) : (s.endSend c).out = s.out ++ [.padpTxDone c] := rfl
@[simp] theorem endSend_reply (s : State) (c : Status) : (s.endSend c).reply = s.reply := rfl

/-! ### `State.clearReceive` -/

@[simp] theorem clearReceive_cfg (s : State) : (s.clearReceive).cfg = s.cfg := rfl
@[simp] theorem clearReceive_crc (s : State) : (s.clearReceive).crc = s.crc := rfl
@[simp] theorem clearReceive_win (s : State) : (s.clearReceive).win = s.win := rfl
@[simp] theorem clearReceive_closed (s : State) : (s.clearReceive).closed = s.closed := rfl
@[simp] theorem clearReceive_txState (s : State) : (s.clearReceive).txState = s.txState := rfl
@[simp] theorem clearReceive_txTxid (s : State) : (s.clearReceive).txTxid = s.txTxid := rfl
@[simp] theorem clearReceive_txAckreq (s : State) : (s.clearReceive).txAckreq = s.txAckreq := rfl
@[simp] theorem clearReceive_txBuf (s : State) : (s.clearReceive).txBuf = s.txBuf := rfl
@[simp] theorem clearReceive_txOff (s : State) : (s.clearReceive).txOff = s.txOff := rfl
@[simp] theorem clearReceive_txTimer (s : State) : (s.clearReceive).txTimer = s.txTimer := rfl
@[simp] theorem clearReceive_txRetries (s : State) : (s.clearReceive).txRetries = s.txRetries := rfl
@[simp] theorem clearReceive_rxState (s : State) : (s.clearReceive).rxState = .idle := rfl
@[simp] theorem clearReceive_rxTxid (s : State) : (s.clearReceive).rxTxid = 0x00 := rfl
@[simp] theorem clearReceive_rxTotal (s : State) : (s.clearReceive).rxTotal = 0 := rfl
@[simp] theorem clearReceive_rxBuf (s : State) : (s.clearReceive).rxBuf = [] := rfl
@[simp] theorem clearReceive_trace (s : State) : (s.clearReceive).trace = s.trace := rfl
@[simp] theorem clearReceive_out (s : State) : (s.clearReceive).out = s.out := rfl
@[simp] theorem clearReceive_reply (s : State) : (s.clearReceive).reply = s.reply := rfl

/-! ### `State.failReceive` -/

@[simp] theorem failReceive_cfg (s : State) (c : Status) : (s.failReceive c).cfg = s.cfg := rfl
@[simp] theorem failReceive_crc (s : State) (c : Status) : (s.failReceive c).crc = s.crc := rfl
@[simp] theorem failReceive_win (s : State) (c : Status) : (s.failReceive c).win = s.win := rfl
@[simp] theorem failReceive_closed (s : State) (c : Status) : (s.failReceive c).closed = s.closed := rfl
@[simp] theorem failReceive_txState (s : State) (c : Status) : (s.failReceive c).txState = s.txState := rfl
@[simp] theorem failReceive_txTxid (s : State) (c : Status) : (s.failReceive c).txTxid = s.txTxid := rfl
@[simp] theorem failReceive_txAckreq (s : State) (c : Status) : (s.failReceive c).txAckreq = s.txAckreq := rfl
@[simp] theorem failReceive_txBuf (s : State) (c : Status) : (s.failReceive c).txBuf = s.txBuf := rfl
@[simp] theorem failReceive_txOff (s : State) (c : Status) : (s.failReceive c).txOff = s.txOff := rfl
@[simp] theorem failReceive_txTimer (s : State) (c : Status) : (s.failReceive c).txTimer = s.txTimer := rfl
@[simp] theorem failReceive_txRetries (s : State) (c : Status) : (s.failReceive c).txRetries = s.txRetries := rfl
@[simp] theorem failReceive_rxState (s : State) (c : Status) : (s.failReceive c).rxState = .idle := rfl
@[simp] theorem failReceive_rxTxid (s : State) (c : Status) : (s.failReceive c).rxTxid = 0x00 := rfl
@[simp] theorem failReceive_rxTotal (s : State) (c : Status) : (s.failReceive c).rxTotal = 0 := rfl
@[simp] theorem failReceive_rxBuf (s : State) (c : Status) : (s.failReceive c).rxBuf = [] := rfl
@[simp] theorem failReceive_trace (s : State) (c : Status) : (s.failReceive c).trace = s.trace := rfl
@[simp] theorem failReceive_out (s : State) (c : Status) : (s.failReceive c).out = s.out ++ [.padpRxErr c] := rfl
@[simp] theorem failReceive_reply (s : State) (c : Status) : (s.failReceive c).reply = s.reply := rfl

/-! ### `State.protocolError` -/

@[simp] theorem protocolError_cfg (s : State) : (s.protocolError).cfg = s.cfg := rfl
@[simp] theorem protocolError_crc (s : State) : (s.protocolError).crc = s.crc := rfl
@[simp] theorem protocolError_win (s : State) : (s.protocolError).win = s.win := rfl
@[simp] theorem protocolError_closed (s : State) : (s.protocolError).closed = s.closed := rfl
@[simp] theorem protocolError_txState (s : State) : (s.protocolError).txState = s.txState := rfl
@[simp] theorem protocolError_txTxid (s : State) : (s.protocolError).txTxid = s.txTxid := rfl
@[simp] theorem protocolError_txAckreq (s : State) : (s.protocolError).txAckreq = s.txAckreq := rfl
@[simp] theorem protocolError_txBuf (s : State) : (s.protocolError).txBuf = s.txBuf := rfl
@[simp] theorem protocolError_txOff (s : State) : (s.protocolError).txOff = s.txOff := rfl
@[simp] theorem protocolError_txTimer (s : State) : (s.protocolError).txTimer = s.txTimer := rfl
@[simp] theorem protocolError_txRetries (s : State) : (s.protocolError).txRetries = s.txRetries := rfl
@[simp] theorem protocolError_rxState (s : State) : (s.protocolError).rxState = .idle := rfl
@[simp] theorem protocolError_rxTxid (s : State) : (s.protocolError).rxTxid = 0x00 := rfl
@[simp] theorem protocolError_rxTotal (s : State) : (s.protocolError).rxTotal = 0 := rfl
@[simp] theorem protocolError_rxBuf (s : State) : (s.protocolError).rxBuf = [] := rfl
@[simp] theorem protocolError_trace (s : State) : (s.protocolError).trace = s.trace := rfl
@[simp] theorem protocolError_out (s : State) : (s.protocolError).out = s.out ++ [.padpRxErr .protocol] := rfl
@[simp] theorem protocolError_reply (s : State) : (s.protocolError).reply = s.reply := rfl

/-! ### `State.writeFragment` -/

@[simp] theorem writeFragment_cfg (s : State) : (s.writeFragment).cfg = s.cfg := rfl
@[simp] theorem writeFragment_crc (s : State) : (s.writeFragment).crc = s.crc := rfl
@[simp] theorem writeFragment_win (s : State) : (s.writeFragment).win = s.win := rfl
@[simp] theorem writeFragment_closed (s : State) : (s.writeFragment).closed = s.closed := rfl
@[simp] theorem writeFragment_txState (s : State) : (s.writeFragment).txState = s.txState := rfl
@[simp] theorem writeFragment_txTxid (s : State) : (s.writeFragment).txTxid = s.txTxid := rfl
@[simp] theorem writeFragment_txAckreq (s : State) : (s.writeFragment).txAckreq = s.txAckreq := rfl
@[simp] theorem writeFragment_txBuf (s : State) : (s.writeFragment).txBuf = s.txBuf := rfl
@[simp] theorem writeFragment_txOff (s : State) : (s.writeFragment).txOff = s.txOff := rfl
@[simp] theorem writeFragment_txTimer (s : State) : (s.writeFragment).txTimer = s.txTimer := rfl
@[simp] theorem writeFragment_txRetries (s : State) : (s.writeFragment).txRetries = s.txRetries := rfl
@[simp] theorem writeFragment_rxState (s : State) : (s.writeFragment).rxState = s.rxState := rfl
@[simp] theorem writeFragment_rxTxid (s : State) : (s.writeFragment).rxTxid = s.rxTxid := rfl
@[simp] theorem writeFragment_rxTotal (s : State) : (s.writeFragment).rxTotal = s.rxTotal := rfl
@[simp] theorem writeFragment_rxBuf (s : State) : (s.writeFragment).rxBuf = s.rxBuf := rfl
@[simp] theorem writeFragment_trace (s : State) : (s.writeFragment).trace = s.trace := rfl
@[simp] theorem writeFragment_out (s : State) :
    (s.writeFragment).out = s.out ++ [.txBytes (slpEncode (padpPacket s.cfg s.txTxid s.currentFragment.body))] := rfl
@[simp] theorem writeFragment_reply (s : State) : (s.writeFragment).reply = s.reply := rfl

/-! ### `State.offering` -/

@[simp] theorem offering_cfg (s : State) (bs : Bytes) : (s.offering bs).cfg = s.cfg := rfl
@[simp] theorem offering_crc (s : State) (bs : Bytes) : (s.offering bs).crc = s.crc := rfl
@[simp] theorem offering_win (s : State) (bs : Bytes) : (s.offering bs).win = s.win := rfl
@[simp] theorem offering_closed (s : State) (bs : Bytes) : (s.offering bs).closed = s.closed := rfl
@[simp] theorem offering_txState (s : State) (bs : Bytes) : (s.offering bs).txState = s.txState := rfl
@[simp] theorem offering_txTxid (s : State) (bs : Bytes) : (s.offering bs).txTxid = s.txTxid := rfl
@[simp] theorem offering_txAckreq (s : State) (bs : Bytes) : (s.offering bs).txAckreq = s.txAckreq := rfl
@[simp] theorem offering_txBuf (s : State) (bs : Bytes) : (s.offering bs).txBuf = s.txBuf := rfl
@[simp] theorem offering_txOff (s : State) (bs : Bytes) : (s.offering bs).txOff = s.txOff := rfl
@[simp] theorem offering_txTimer (s : State) (bs : Bytes) : (s.offering bs).txTimer = s.txTimer := rfl
@[simp] theorem offering_txRetries (s : State) (bs : Bytes) : (s.offering bs).txRetries = s.txRetries := rfl
@[simp] theorem offering_rxState (s : State) (bs : Bytes) : (s.offering bs).rxState = s.rxState := rfl
@[simp] theorem offering_rxTxid (s : State) (bs : Bytes) : (s.offering bs).rxTxid = s.rxTxid := rfl
@[simp] theorem offering_rxTotal (s : State) (bs : Bytes) : (s.offering bs).rxTotal = s.rxTotal := rfl
@[simp] theorem offering_rxBuf (s : State) (bs : Bytes) : (s.offering bs).rxBuf = s.rxBuf := rfl
@[simp] theorem offering_trace (s : State) (bs : Bytes) : (s.offering bs).trace = bs := rfl
@[simp] theorem offering_out (s : State) (bs : Bytes) : (s.offering bs).out = s.out := rfl
@[simp] theorem offering_reply (s : State) (bs : Bytes) : (s.offering bs).reply = s.reply := rfl

end Sys2Proof.Machine
end

