-- ==== Sys2Proof/Laws/Ops.lean ====
section
/-! SUPPORT. What running a rule, one instruction and one step can do (00_scope.md R10, 45_system.md R256): later proofs
cite these and unfold neither `perform` nor `exec`. -/

namespace Sys2Proof.Machine

/-! ### Running a rule -/

theorem perform_of_valid {s : State} (h : s.cfg.Valid) (f : State → State) :
    perform s f = .next (f { s with reply := none }) := if_pos h

theorem perform_of_invalid {s : State} (h : ¬ s.cfg.Valid) (f : State → State) :
    perform s f = .refused .invalidConfiguration := if_neg h

theorem perform_eq_next_iff {s t : State} {f : State → State} :
    perform s f = .next t ↔ s.cfg.Valid ∧ t = f { s with reply := none } := by
  unfold perform
  split
  · simp only [Host.Outcome.next.injEq]
    exact ⟨fun h => ⟨by assumption, h.symm⟩, fun h => h.2.symm⟩
  · simp only [reduceCtorEq, false_iff]
    exact fun h => absurd h.1 (by assumption)

/-! ### One instruction -/

/-- The effect of each instruction, from a state with no return value, where it completes. -/
def effectOf (i : Instr) (s : State) : State :=
  match i with
  | .nop => s.answer .ok
  | .crcClr => { s with crc := 0x0000 }.answer .ok
  | .crcUpd b => { s with crc := crc16Update s.crc b }.answer .ok
  | .crcRd => s.answer .ok (.crc s.crc)
  | .crcChk v => s.answer .ok (.equal (s.crc == v))
  | .slpTx p =>
    if s.closed then s.answer .closed
    else if s.cfg.slpMaxBody < p.body.length then s.answer .refused
    else (s.slpWrite p).answer .ok
  | .padpSend txid opts payload =>
    if s.closed then s.answer .closed
    else if optsReserved opts then s.answer .refused
    else if s.txState ≠ .idle then s.answer .busy
    else if s.cfg.padpMaxPayload < payload.length then s.answer .refused
    else
      { s with txBuf := payload, txTxid := txid, txAckreq := optsAckreq opts, txOff := 0,
               txState := .sending }.answer .ok
  | .status => s.answer .ok (.statusByte s.statusByte)
  | .rxByte b => rxByteEffect b s
  | .tick => tickEffect s
  | .padpTxstep => txstepEffect s
  | .cancel => cancelEffect s
  | .close => cancelEffect s
  | .reset => resetEffect s
  | .reserved _ => s.answer .refused
  | .slpFrame p => feed (slpEncode p) s
  | .padpDataFirst txid _ size data => s.received (dataFirst txid size.toNat data)
  | .padpDataOnly txid ack _ size data => s.received (dataOnly txid ack size.toNat data)
  | .padpDataMid txid _ size data => s.received (dataMid txid size.toNat data)
  | .padpDataLast txid ack _ size data => s.received (dataLast txid ack size.toNat data)
  | .padpAck txid _ _ _ => s.received (ackInput txid)
  | .padpIllegal _ _ _ _ => s.received State.protocolError

/-- Every instruction but `PADP.TXSTEP` runs its effect under any legal configuration. -/
theorem exec_eq_perform {i : Instr} (h : i ≠ .padpTxstep) (s : State) : exec i s = perform s (effectOf i) := by
  cases i <;> first | rfl | exact absurd rfl h

theorem exec_padpTxstep_of_enabled {s : State} (h : s.txstepEnabled = true) :
    exec .padpTxstep s = perform s txstepEffect := by
  simp [exec, execPadpTxstep, h]

theorem exec_padpTxstep_of_not_enabled {s : State} (hv : s.cfg.Valid) (h : s.txstepEnabled = false) :
    exec .padpTxstep s = .refused .txstepNotEnabled := by
  simp only [exec, execPadpTxstep]
  exact if_pos ⟨hv, h⟩

/-- All that an instruction does when it answers a next state. -/
theorem exec_eq_next {i : Instr} {s t : State} (h : exec i s = .next t) :
    s.cfg.Valid ∧ t = effectOf i { s with reply := none } ∧ (i = .padpTxstep → s.txstepEnabled = true) := by
  by_cases hi : i = .padpTxstep
  · subst hi
    cases he : s.txstepEnabled
    · by_cases hv : s.cfg.Valid
      · rw [exec_padpTxstep_of_not_enabled hv he] at h
        cases h
      · simp only [exec, execPadpTxstep, hv, false_and, if_false, perform_of_invalid hv] at h
        cases h
    · rw [exec_padpTxstep_of_enabled he] at h
      obtain ⟨hv, ht⟩ := perform_eq_next_iff.mp h
      exact ⟨hv, ht, fun _ => rfl⟩
  · rw [exec_eq_perform hi] at h
    obtain ⟨hv, ht⟩ := perform_eq_next_iff.mp h
    exact ⟨hv, ht, fun h' => absurd h' hi⟩

/-- No instruction runs under a configuration that breaks R7. -/
theorem exec_of_invalid (i : Instr) {s : State} (h : ¬ s.cfg.Valid) : exec i s = .refused .invalidConfiguration := by
  by_cases hi : i = .padpTxstep
  · subst hi
    simp only [exec, execPadpTxstep, h, false_and, if_false, perform_of_invalid h]
  · rw [exec_eq_perform hi, perform_of_invalid h]

/-! ### The effects that branch, as one update each -/

/-- `CANCEL` in an open LE (R251). -/
theorem cancelEffect_of_open {s : State} (h : s.closed = false) :
    cancelEffect s =
      { s with closed := true, win := [], txState := .idle, rxState := .idle,
               rxTxid := if s.rxState = .assembling then 0x00 else s.rxTxid,
               rxTotal := if s.rxState = .assembling then 0 else s.rxTotal,
               rxBuf := if s.rxState = .assembling then [] else s.rxBuf,
               out := s.out ++ (if s.txState = .idle then [] else [.padpTxDone .cancelled]) ++
                 (if s.rxState = .assembling then [.padpRxErr .cancelled] else []),
               reply := some ⟨.ok, .none⟩ } := by
  unfold cancelEffect cancelReceive cancelSend
  cases hr : s.rxState <;> cases ht : s.txState <;>
    simp [h, State.answer, State.endSend, State.failReceive, State.clearReceive, State.emit]

/-- `CANCEL` when closed (R251). -/
theorem cancelEffect_of_closed {s : State} (h : s.closed = true) : cancelEffect s = s.answer .ok := by
  simp [cancelEffect, h]

/-- `PADP.TXSTEP` (R193, R194). -/
theorem txstepEffect_eq (s : State) :
    txstepEffect s =
      if s.currentFragment.last = false then
        { s.writeFragment with txOff := s.txOff + s.currentFragment.count }
      else if s.txAckreq = true then
        { s.writeFragment with txState := .waitAck, txTimer := s.cfg.padpAckTimeout, txRetries := 0 }
      else s.writeFragment.endSend .ok := rfl

/-- `TICK` (R197). -/
theorem tickEffect_eq (s : State) :
    tickEffect s =
      if s.closed = true ∨ s.txState ≠ .waitAck then s
      else if 0 < s.txTimer - 1 then { s with txTimer := s.txTimer - 1 }
      else if s.txRetries < s.cfg.padpMaxRetries then
        { s.writeFragment with txRetries := s.txRetries + 1, txTimer := s.cfg.padpAckTimeout }
      else { s with txTimer := s.txTimer - 1 }.endSend .timeout := by
  simp only [tickEffect, Bool.or_eq_true, decide_eq_true_eq]
  rfl

/-- What arrives in an open LE is acted on (R165). -/
theorem received_of_open {s : State} (h : s.closed = false) (f : State → State) : s.received f = f s := by
  simp [State.received, h]

/-- What arrives in a closed LE is discarded (R257). -/
theorem received_of_closed {s : State} (h : s.closed = true) (f : State → State) : s.received f = s := by
  simp [State.received, h]

/-! ### One step -/

theorem step_of_record {s : State} {i : Instr} {rest : Bytes} (h : decodeRecord s.trace = .ok (i, rest)) :
    step s = exec i { s with trace := rest } := by
  unfold step fetch
  cases ht : s.trace with
  | nil => rw [ht] at h; cases h
  | cons c r =>
    rw [ht] at h
    simp only [h]

theorem step_of_error {s : State} {e : DecodeError} (hne : s.trace ≠ []) (h : decodeRecord s.trace = .error e) :
    step s = .refused .truncatedRecord := by
  unfold step fetch
  cases ht : s.trace with
  | nil => exact absurd ht hne
  | cons c r =>
    rw [ht] at h
    simp only [h]

theorem step_of_nil {s : State} (h : s.trace = []) : step s = idleStep s := by
  unfold step fetch
  rw [h]

/-- All that one step does when it answers a next state. -/
theorem step_eq_next {s t : State} (h : step s = .next t) :
    (∃ i rest, decodeRecord s.trace = .ok (i, rest) ∧ exec i { s with trace := rest } = .next t) ∨
    (s.trace = [] ∧ s.txstepEnabled = true ∧ exec .padpTxstep s = .next t) ∨
    (s.trace = [] ∧ s.txstepEnabled = false ∧ s.cfg.Valid ∧ t = s) := by
  by_cases ht : s.trace = []
  · rw [step_of_nil ht] at h
    unfold idleStep at h
    split at h
    · split at h
      · exact .inr (.inl ⟨ht, by assumption, h⟩)
      · cases h
        exact .inr (.inr ⟨ht, by simp_all, by assumption, rfl⟩)
    · cases h
  · cases hd : decodeRecord s.trace with
    | error e => rw [step_of_error ht hd] at h; cases h
    | ok v =>
      obtain ⟨i, rest⟩ := v
      rw [step_of_record hd] at h
      exact .inl ⟨i, rest, rfl, h⟩

/-! ### Several steps -/

@[simp] theorem run_zero (s : State) : core.run 0 s = .next s := rfl

theorem run_succ_of_next {k : Nat} {s t : State} (h : step s = .next t) : core.run (k + 1) s = core.run k t := by
  have (M : Host.Core) (s t : M.State) (h : M.step s = .next t) : M.run (k + 1) s = M.run k t := by
    simp only [Host.Core.run, h]
  exact this core s t h

theorem run_succ_of_refused {k : Nat} {s : State} {r : Refusal} (h : step s = .refused r) :
    core.run (k + 1) s = .refused r := by
  have (M : Host.Core) (s : M.State) (r : M.Refusal) (h : M.step s = .refused r) :
      M.run (k + 1) s = .refused r := by
    simp only [Host.Core.run, h]
  exact this core s r h

/-- Steps one after another. -/
theorem run_add {m n : Nat} {s t : State} (h : core.run m s = .next t) : core.run (m + n) s = core.run n t := by
  induction m generalizing s with
  | zero =>
    cases h
    rw [Nat.zero_add]
  | succ m ih =>
    rw [Nat.succ_add]
    cases hs : step s with
    | next u =>
      rw [run_succ_of_next hs] at h ⊢
      exact ih h
    | fault r => exact nomatch r
    | refused r =>
      rw [run_succ_of_refused hs] at h
      cases h

end Sys2Proof.Machine
end

