-- ==== Sys2Proof/Laws/PerInstr.lean ====
section
/-! SUPPORT. Laws about every instruction as syntax, one lemma per constructor. -/

namespace Sys2Proof.Laws.RoundTrip

open Sys2Proof Machine

/-- Decoding the encoding of a well-formed instruction, in its own space, gives it back (30_encoding.md R90, R100, R106). -/
def Statement (i : Instr) : Prop := i.wf = true → decode i.space (encode i) = .ok i

theorem nop : Statement .nop := fun _ => rfl

theorem crcClr : Statement .crcClr := fun _ => rfl

theorem crcUpd (b : Byte) : Statement (.crcUpd b) := fun _ => rfl

theorem crcRd : Statement .crcRd := fun _ => rfl

theorem crcChk (v : Word16) : Statement (.crcChk v) := fun _ => by
  show Except.ok (Instr.crcChk (word16 (v.extractLsb' 8 8) (v.extractLsb' 0 8))) = _
  rw [word16_extract]

theorem slpTx (p : Packet) : Statement (.slpTx p) := fun h => decode_of_decodeRecord (by
  have hs := decodeSized_encodeSized 0x10 (fun body => .slpTx ⟨p.dst, p.src, p.type, p.txid, body⟩) p.body []
    ((bodyFits_iff _).mp h)
  rw [List.append_nil] at hs
  exact hs)

theorem padpSend (txid opts : Byte) (payload : Bytes) : Statement (.padpSend txid opts payload) := fun h =>
  decode_of_decodeRecord (by
    have hs := decodeSized_encodeSized 0x20 (fun payload => .padpSend txid opts payload) payload []
      ((bodyFits_iff _).mp h)
    rw [List.append_nil] at hs
    exact hs)

theorem status : Statement .status := fun _ => rfl

theorem rxByte (b : Byte) : Statement (.rxByte b) := fun _ => rfl

theorem tick : Statement .tick := fun _ => rfl

theorem padpTxstep : Statement .padpTxstep := fun _ => rfl

theorem cancel : Statement .cancel := fun _ => rfl

theorem close : Statement .close := fun _ => rfl

theorem reset : Statement .reset := fun _ => rfl

theorem reserved (code : Byte) : Statement (.reserved code) := fun h => by
  have : opOfCode code = none := by simpa [Instr.wf] using h
  simp [Instr.space, encode, decode, decodeRecord, this]

theorem slpFrame (p : Packet) : Statement (.slpFrame p) := fun h =>
  decodeFrame_slpEncode p ((bodyFits_iff _).mp h)

theorem padpDataFirst (txid : Byte) (rsv : BitVec 5) (size : Word16) (data : Bytes) :
    Statement (.padpDataFirst txid rsv size data) := fun _ => decodeFragment_of_fields txid true false false rsv size data

theorem padpDataOnly (txid : Byte) (ack : Bool) (rsv : BitVec 5) (size : Word16) (data : Bytes) :
    Statement (.padpDataOnly txid ack rsv size data) := fun _ => decodeFragment_of_fields txid true true ack rsv size data

theorem padpDataMid (txid : Byte) (rsv : BitVec 5) (size : Word16) (data : Bytes) :
    Statement (.padpDataMid txid rsv size data) := fun _ => decodeFragment_of_fields txid false false false rsv size data

theorem padpDataLast (txid : Byte) (ack : Bool) (rsv : BitVec 5) (size : Word16) (data : Bytes) :
    Statement (.padpDataLast txid ack rsv size data) := fun _ => decodeFragment_of_fields txid false true ack rsv size data

theorem padpAck (txid : Byte) (rsv : BitVec 5) (size : Word16) (data : Bytes) :
    Statement (.padpAck txid rsv size data) := fun _ => decodeFragment_of_fields txid false false true rsv size data

theorem padpIllegal (txid : Byte) (rsv : BitVec 5) (size : Word16) (data : Bytes) :
    Statement (.padpIllegal txid rsv size data) := fun _ => decodeFragment_of_fields txid true false true rsv size data

end Sys2Proof.Laws.RoundTrip
end

