-- ==== Sys2Proof/Laws/Receive.lean ====
section
/-! SUPPORT. What a delivered packet, a scan and a received byte can do (42_slp_rx.md R165 to R176, 44_padp_recv.md
R220 to R229): one inversion lemma each, and one induction for whatever every turn keeps. -/

namespace Sys2Proof.Machine

/-! ### A delivered packet -/

/-- What the receive path may do to the state with one packet. -/
inductive Delivered (s : State) : State → Prop where
  /-- Nothing: no subscriber, not this channel, or an ack that does not match. -/
  | ignored : Delivered s s
  /-- A subscriber outside LE takes the packet. -/
  | outside (p : Packet) : Delivered s (s.emit (.slpRx p.dst p.src p.type p.txid p.body))
  /-- A matching ack ends the send. -/
  | acked (h : s.txState = .waitAck) : Delivered s (s.endSend .ok)
  /-- A malformed or out-of-sequence fragment fails the receive. -/
  | failed : Delivered s s.protocolError
  /-- A first fragment opens a reassembly. -/
  | opened (txid : Byte) (size : Nat) (data : Bytes) (hi : s.rxState = .idle) (hs : size ≤ s.cfg.padpMaxPayload)
      (hd : data.length < size) :
      Delivered s { s with rxState := .assembling, rxTxid := txid, rxTotal := size, rxBuf := data }
  /-- A continuing fragment is appended. -/
  | extended (data : Bytes) (ha : s.rxState = .assembling) (hd : s.rxBuf.length + data.length < s.rxTotal) :
      Delivered s { s with rxBuf := s.rxBuf ++ data }
  /-- A message is complete. -/
  | completed (txid : Byte) (ack : Bool) (payload : Bytes) : Delivered s (complete txid ack payload s)

theorem ackInput_cases (txid : Byte) (s : State) : Delivered s (ackInput txid s) := by
  unfold ackInput
  split
  · exact .acked (by simp_all)
  · exact .ignored

theorem dataFirst_cases (txid : Byte) (size : Nat) (data : Bytes) (s : State) :
    Delivered s (dataFirst txid size data s) := by
  unfold dataFirst
  split_ifs with h1 h2 h3
  · exact .failed
  · exact .failed
  · exact .failed
  · exact .opened txid size data (by cases h : s.rxState <;> simp_all) (by omega) (by omega)

theorem dataOnly_cases (txid : Byte) (ack : Bool) (size : Nat) (data : Bytes) (s : State) :
    Delivered s (dataOnly txid ack size data s) := by
  unfold dataOnly
  split_ifs
  · exact .failed
  · exact .failed
  · exact .failed
  · exact .completed txid ack data

theorem dataMid_cases (txid : Byte) (size : Nat) (data : Bytes) (s : State) :
    Delivered s (dataMid txid size data s) := by
  unfold dataMid
  split_ifs with h1 h2 h3 h4
  · exact .failed
  · exact .failed
  · exact .failed
  · exact .failed
  · exact .extended data (by cases h : s.rxState <;> simp_all) (by omega)

theorem dataLast_cases (txid : Byte) (ack : Bool) (size : Nat) (data : Bytes) (s : State) :
    Delivered s (dataLast txid ack size data s) := by
  unfold dataLast
  split_ifs
  · exact .failed
  · exact .failed
  · exact .failed
  · exact .failed
  · exact .completed txid ack _

theorem dispatchFragment_cases (txid : Byte) (first last ack : Bool) (size : Nat) (data : Bytes) (s : State) :
    Delivered s (dispatchFragment txid first last ack size data s) := by
  unfold dispatchFragment
  split_ifs
  · exact ackInput_cases txid s
  · exact .failed
  · exact dataFirst_cases txid size data s
  · exact dataOnly_cases txid ack size data s
  · exact dataMid_cases txid size data s
  · exact dataLast_cases txid ack size data s

theorem parseFragment_cases (txid : Byte) (body : Bytes) (s : State) : Delivered s (parseFragment txid body s) := by
  unfold parseFragment
  split
  · exact .failed
  · exact dispatchFragment_cases _ _ _ _ _ _ s

theorem padpInput_cases (p : Packet) (s : State) : Delivered s (padpInput p s) := by
  unfold padpInput
  split
  · exact .ignored
  · split
    · exact .ignored
    · exact parseFragment_cases _ _ s

theorem deliver_cases (p : Packet) (s : State) : Delivered s (deliver p s) := by
  unfold deliver
  split
  · exact .ignored
  · split
    · exact padpInput_cases p s
    · exact .outside p

/-- Completing a message writes to the receiver and to the outputs only. -/
@[simp] theorem complete_eq (txid : Byte) (ack : Bool) (payload : Bytes) (s : State) :
    complete txid ack payload s =
      { s with rxState := .idle, rxTxid := 0x00, rxTotal := 0, rxBuf := [],
               out := s.out ++ .padpRxMsg txid payload ::
                 (if ack then [.txBytes (slpEncode (padpPacket s.cfg txid ackBody))] else []) } := by
  unfold complete
  cases ack <;> simp [State.slpWrite, State.emit, State.clearReceive]

/-- What the receive path never touches, and how it may change the sender and the outputs. -/
structure ReceiveFrame (s t : State) : Prop where
  cfg : t.cfg = s.cfg
  crc : t.crc = s.crc
  closed : t.closed = s.closed
  txTxid : t.txTxid = s.txTxid
  txAckreq : t.txAckreq = s.txAckreq
  txBuf : t.txBuf = s.txBuf
  txOff : t.txOff = s.txOff
  txTimer : t.txTimer = s.txTimer
  txRetries : t.txRetries = s.txRetries
  trace : t.trace = s.trace
  reply : t.reply = s.reply
  txState : t.txState = s.txState ∨ (s.txState = .waitAck ∧ t.txState = .idle)
  out : s.out <+: t.out

theorem ReceiveFrame.refl (s : State) : ReceiveFrame s s :=
  ⟨rfl, rfl, rfl, rfl, rfl, rfl, rfl, rfl, rfl, rfl, rfl, .inl rfl, List.prefix_rfl⟩

theorem ReceiveFrame.trans {s t u : State} (h : ReceiveFrame s t) (k : ReceiveFrame t u) : ReceiveFrame s u where
  cfg := k.cfg.trans h.cfg
  crc := k.crc.trans h.crc
  closed := k.closed.trans h.closed
  txTxid := k.txTxid.trans h.txTxid
  txAckreq := k.txAckreq.trans h.txAckreq
  txBuf := k.txBuf.trans h.txBuf
  txOff := k.txOff.trans h.txOff
  txTimer := k.txTimer.trans h.txTimer
  txRetries := k.txRetries.trans h.txRetries
  trace := k.trace.trans h.trace
  reply := k.reply.trans h.reply
  txState := by
    rcases h.txState with h1 | h1 <;> rcases k.txState with k1 | k1 <;> simp_all
  out := h.out.trans k.out

theorem ReceiveFrame.setWin (s : State) (w : Bytes) : ReceiveFrame s { s with win := w } :=
  ⟨rfl, rfl, rfl, rfl, rfl, rfl, rfl, rfl, rfl, rfl, rfl, .inl rfl, List.prefix_rfl⟩

theorem Delivered.frame {s t : State} (h : Delivered s t) : ReceiveFrame s t := by
  cases h with
  | ignored => exact .refl s
  | outside p => exact ⟨rfl, rfl, rfl, rfl, rfl, rfl, rfl, rfl, rfl, rfl, rfl, .inl rfl, ⟨_, rfl⟩⟩
  | acked h => exact ⟨rfl, rfl, rfl, rfl, rfl, rfl, rfl, rfl, rfl, rfl, rfl, .inr ⟨h, rfl⟩, ⟨_, rfl⟩⟩
  | failed => exact ⟨rfl, rfl, rfl, rfl, rfl, rfl, rfl, rfl, rfl, rfl, rfl, .inl rfl, ⟨_, rfl⟩⟩
  | opened => exact ⟨rfl, rfl, rfl, rfl, rfl, rfl, rfl, rfl, rfl, rfl, rfl, .inl rfl, List.prefix_rfl⟩
  | extended => exact ⟨rfl, rfl, rfl, rfl, rfl, rfl, rfl, rfl, rfl, rfl, rfl, .inl rfl, List.prefix_rfl⟩
  | completed => rw [complete_eq]; exact ⟨rfl, rfl, rfl, rfl, rfl, rfl, rfl, rfl, rfl, rfl, rfl, .inl rfl, ⟨_, rfl⟩⟩

theorem Delivered.win {s t : State} (h : Delivered s t) : t.win = s.win := by
  cases h with
  | completed => rw [complete_eq]
  | _ => rfl

theorem deliver_frame (p : Packet) (s : State) : ReceiveFrame s (deliver p s) := (deliver_cases p s).frame

@[simp] theorem deliver_win (p : Packet) (s : State) : (deliver p s).win = s.win := (deliver_cases p s).win

@[simp] theorem deliver_cfg (p : Packet) (s : State) : (deliver p s).cfg = s.cfg := (deliver_frame p s).cfg

@[simp] theorem deliver_closed (p : Packet) (s : State) : (deliver p s).closed = s.closed := (deliver_frame p s).closed

/-! ### What the receive path does not read -/

/-- The state with other values of `crc` and of the records still to be taken, which the receive path neither reads nor
writes (R22, R139). -/
def State.beside (s : State) (c : Word16) (tr : Bytes) : State := { s with crc := c, trace := tr }

theorem ite_beside (P : Prop) [Decidable P] (s t : State) (c : Word16) (tr : Bytes) :
    (if P then s.beside c tr else t.beside c tr) = (if P then s else t).beside c tr := by
  split <;> rfl

theorem complete_beside (txid : Byte) (ack : Bool) (d : Bytes) (s : State) (c : Word16) (tr : Bytes) :
    complete txid ack d (s.beside c tr) = (complete txid ack d s).beside c tr := by
  simp only [complete_eq]
  rfl

theorem ackInput_beside (txid : Byte) (s : State) (c : Word16) (tr : Bytes) :
    ackInput txid (s.beside c tr) = (ackInput txid s).beside c tr := by
  unfold ackInput
  rw [← ite_beside]
  rfl

theorem dataFirst_beside (txid : Byte) (n : Nat) (d : Bytes) (s : State) (c : Word16) (tr : Bytes) :
    dataFirst txid n d (s.beside c tr) = (dataFirst txid n d s).beside c tr := by
  unfold dataFirst
  simp only [← ite_beside]
  rfl

theorem dataOnly_beside (txid : Byte) (ack : Bool) (n : Nat) (d : Bytes) (s : State) (c : Word16) (tr : Bytes) :
    dataOnly txid ack n d (s.beside c tr) = (dataOnly txid ack n d s).beside c tr := by
  unfold dataOnly
  simp only [← ite_beside, ← complete_beside]
  rfl

theorem dataMid_beside (txid : Byte) (n : Nat) (d : Bytes) (s : State) (c : Word16) (tr : Bytes) :
    dataMid txid n d (s.beside c tr) = (dataMid txid n d s).beside c tr := by
  unfold dataMid
  simp only [← ite_beside]
  rfl

theorem dataLast_beside (txid : Byte) (ack : Bool) (n : Nat) (d : Bytes) (s : State) (c : Word16) (tr : Bytes) :
    dataLast txid ack n d (s.beside c tr) = (dataLast txid ack n d s).beside c tr := by
  unfold dataLast
  simp only [← ite_beside, ← complete_beside]
  rfl

theorem deliver_beside (p : Packet) (s : State) (c : Word16) (tr : Bytes) :
    deliver p (s.beside c tr) = (deliver p s).beside c tr := by
  have hp : (s.beside c tr).protocolError = s.protocolError.beside c tr := rfl
  unfold deliver padpInput parseFragment dispatchFragment
  simp only [ackInput_beside, dataFirst_beside, dataOnly_beside, dataMid_beside, dataLast_beside, hp, ← ite_beside]
  rfl

/-! ### A fragment on the channel -/

/-- A frame of the channel that holds a whole fragment header is dispatched by its flags (R174, R220 to R222). -/
theorem deliver_of_channel {s : State} (h : s.cfg.padpLocalSocket ∈ s.cfg.slpSubs) (txid flags : Byte) (size : Word16)
    (data : Bytes) :
    deliver ⟨s.cfg.padpLocalSocket, s.cfg.padpRemoteSocket, s.cfg.slpTypePadp, txid, mkFragment flags size data⟩ s =
      dispatchFragment txid (flagFirst flags) (flagLast flags) (flagAck flags) size.toNat data s := by
  have hl : ¬ (mkFragment flags size data).length < 3 := by simp [mkFragment, be16_eq]
  simp only [deliver, h, not_true_eq_false, if_false, if_true, padpInput, ne_eq, parseFragment, hl]
  simp [mkFragment, be16_eq]

/-! ### A scan -/

/-- One turn of the scan and the rest (R166). -/
theorem scanTurns_succ (n : Nat) (s : State) :
    scanTurns (n + 1) s =
      match examine s.cfg.slpMaxBody s.win with
      | .wait => s
      | .reject => scanTurns n { s with win := s.win.drop 1 }
      | .accept p => scanTurns n (deliver p { s with win := s.win.drop (12 + p.body.length) }) := rfl

/-- Turns beyond the window's length change nothing (R173). -/
theorem scanTurns_enough {n m : Nat} {s : State} (hn : s.win.length ≤ n) (hm : s.win.length ≤ m) :
    scanTurns n s = scanTurns m s := by
  induction n generalizing m s with
  | zero =>
    cases m with
    | zero => rfl
    | succ m =>
      have : s.win = [] := List.length_eq_zero_iff.mp (by omega)
      simp [this, scanTurns]
  | succ n ih =>
    cases m with
    | zero =>
      have : s.win = [] := List.length_eq_zero_iff.mp (by omega)
      simp [this, scanTurns]
    | succ m =>
      simp only [scanTurns_succ]
      cases h : examine s.cfg.slpMaxBody s.win with
      | wait => rfl
      | reject =>
        have := examine_reject_pos h
        exact ih (by simp; omega) (by simp; omega)
      | accept p =>
        have := examine_accept_length h
        exact ih (by simp; omega) (by simp; omega)

/-- The scan as its own continuation: what one turn finds, then the scan again (R166). -/
theorem scan_eq (s : State) :
    scan s =
      match examine s.cfg.slpMaxBody s.win with
      | .wait => s
      | .reject => scan { s with win := s.win.drop 1 }
      | .accept p => scan (deliver p { s with win := s.win.drop (12 + p.body.length) }) := by
  unfold scan
  cases hl : s.win.length with
  | zero =>
    have : s.win = [] := List.length_eq_zero_iff.mp hl
    simp [this, scanTurns]
  | succ n =>
    rw [scanTurns_succ]
    cases h : examine s.cfg.slpMaxBody s.win with
    | wait => rfl
    | reject => exact scanTurns_enough (by simp; omega) (by simp)
    | accept p => exact scanTurns_enough (by simp; omega) (by simp)

theorem scan_of_wait {s : State} (h : examine s.cfg.slpMaxBody s.win = .wait) : scan s = s := by
  rw [scan_eq, h]

theorem scan_of_reject {s : State} (h : examine s.cfg.slpMaxBody s.win = .reject) :
    scan s = scan { s with win := s.win.drop 1 } := by
  rw [scan_eq, h]

theorem scan_of_accept {s : State} {p : Packet} (h : examine s.cfg.slpMaxBody s.win = .accept p) :
    scan s = scan (deliver p { s with win := s.win.drop (12 + p.body.length) }) := by
  rw [scan_eq, h]

/-- Induction over the turns of a scan. -/
theorem scan_induction {P : State → State → Prop}
    (wait : ∀ s, examine s.cfg.slpMaxBody s.win = .wait → P s s)
    (reject : ∀ s t, examine s.cfg.slpMaxBody s.win = .reject → P { s with win := s.win.drop 1 } t → P s t)
    (accept : ∀ s t p, examine s.cfg.slpMaxBody s.win = .accept p →
      P (deliver p { s with win := s.win.drop (12 + p.body.length) }) t → P s t) (s : State) : P s (scan s) := by
  induction hl : s.win.length using Nat.strong_induction_on generalizing s with
  | _ n ih =>
    cases h : examine s.cfg.slpMaxBody s.win with
    | wait => rw [scan_of_wait h]; exact wait s h
    | reject =>
      have := examine_reject_pos h
      rw [scan_of_reject h]
      exact reject s _ h (ih _ (by simp; omega) _ rfl)
    | accept p =>
      have := examine_accept_length h
      rw [scan_of_accept h]
      exact accept s _ p h (ih _ (by simp; omega) _ rfl)

/-- What dropping window bytes and delivering packets keep, a scan keeps. -/
theorem scan_keeps {P : State → Prop} (drop : ∀ s w, P s → P { s with win := w })
    (del : ∀ s p, P s → P (deliver p s)) (s : State) (h : P s) : P (scan s) := by
  refine scan_induction (P := fun s t => P s → P t) (fun _ _ h => h) (fun s t _ ih h => ih (drop _ _ h))
    (fun s t p _ ih h => ih (del _ _ (drop _ _ h))) s h

theorem scan_frame (s : State) : ReceiveFrame s (scan s) :=
  scan_keeps (P := fun t => ReceiveFrame s t) (fun _ _ h => h.trans (.setWin _ _))
    (fun t p h => h.trans (deliver_frame p t)) s (.refl s)

/-- After a scan the window waits for a byte that has not arrived (R173). -/
theorem scan_settled (s : State) : examine (scan s).cfg.slpMaxBody (scan s).win = .wait :=
  scan_induction (P := fun _ t => examine t.cfg.slpMaxBody t.win = .wait) (fun _ h => h) (fun _ _ _ h => h)
    (fun _ _ _ _ h => h) s

theorem scan_beside (s : State) (c : Word16) (tr : Bytes) : scan (s.beside c tr) = (scan s).beside c tr := by
  refine scan_induction (P := fun s t => scan (s.beside c tr) = t.beside c tr) (fun s h => scan_of_wait h)
    (fun s t h ih => ?_) (fun s t p h ih => ?_) s
  · rw [scan_of_reject (s := s.beside c tr) h]
    exact ih
  · rw [scan_of_accept (s := s.beside c tr) (p := p) h, ← ih, ← deliver_beside]
    rfl

/-! ### Received bytes -/

theorem rxByteEffect_of_closed {s : State} (h : s.closed = true) (b : Byte) : rxByteEffect b s = s := by
  simp [rxByteEffect, State.received, h]

theorem rxByteEffect_of_open {s : State} (h : s.closed = false) (b : Byte) :
    rxByteEffect b s = scan { s with win := s.win ++ [b] } := by
  simp [rxByteEffect, State.received, h]

theorem rxByteEffect_frame (b : Byte) (s : State) : ReceiveFrame s (rxByteEffect b s) := by
  cases h : s.closed
  · rw [rxByteEffect_of_open h]
    exact (ReceiveFrame.setWin s _).trans (scan_frame _)
  · rw [rxByteEffect_of_closed h]
    exact .refl s

@[simp] theorem feed_nil (s : State) : feed [] s = s := rfl

@[simp] theorem feed_cons (b : Byte) (bs : Bytes) (s : State) : feed (b :: bs) s = feed bs (rxByteEffect b s) := rfl

theorem feed_append (bs cs : Bytes) (s : State) : feed (bs ++ cs) s = feed cs (feed bs s) := by
  induction bs generalizing s with
  | nil => rfl
  | cons b bs ih => simp [ih]

/-- What every received byte keeps, a run of bytes keeps. -/
theorem feed_keeps {P : State → Prop} (rx : ∀ s b, P s → P (rxByteEffect b s)) (bs : Bytes) (s : State) (h : P s) :
    P (feed bs s) := by
  induction bs generalizing s with
  | nil => exact h
  | cons b bs ih => exact ih _ (rx s b h)

theorem feed_frame (bs : Bytes) (s : State) : ReceiveFrame s (feed bs s) :=
  feed_keeps (P := fun t => ReceiveFrame s t) (fun t b h => h.trans (rxByteEffect_frame b t)) bs s (.refl s)

theorem feed_of_closed {s : State} (h : s.closed = true) (bs : Bytes) : feed bs s = s := by
  induction bs with
  | nil => rfl
  | cons b bs ih => rw [feed_cons, rxByteEffect_of_closed h, ih]

theorem rxByteEffect_beside (b : Byte) (s : State) (c : Word16) (tr : Bytes) :
    rxByteEffect b (s.beside c tr) = (rxByteEffect b s).beside c tr := by
  rcases Bool.eq_false_or_eq_true s.closed with h | h
  · rw [rxByteEffect_of_closed h, rxByteEffect_of_closed (s := s.beside c tr) h]
  · rw [rxByteEffect_of_open h, rxByteEffect_of_open (s := s.beside c tr) h, ← scan_beside]
    rfl

theorem feed_beside (bs : Bytes) (s : State) (c : Word16) (tr : Bytes) :
    feed bs (s.beside c tr) = (feed bs s).beside c tr := by
  induction bs generalizing s with
  | nil => rfl
  | cons b bs ih => rw [feed_cons, feed_cons, rxByteEffect_beside, ih]

/-! ### A whole frame -/

/-- Bytes that wait at every length are held in the window. -/
theorem feed_take_of_wait {s : State} (hw : s.win = []) (ho : s.closed = false) {g : Bytes} {n : Nat} (hn : n ≤ g.length)
    (h : ∀ k ≤ n, examine s.cfg.slpMaxBody (g.take k) = .wait) : feed (g.take n) s = { s with win := g.take n } := by
  induction n with
  | zero => rw [List.take_zero, feed_nil, ← hw]
  | succ n ih =>
    have hs := h (n + 1) le_rfl
    rw [List.take_succ_eq_append_getElem (by omega)] at hs ⊢
    rw [feed_append, ih (by omega) fun k hk => h k (by omega), feed_cons, feed_nil, rxByteEffect_of_open (by exact ho)]
    exact scan_of_wait hs

/-- Bytes that wait until the last one has arrived are scanned whole then. -/
theorem feed_eq_scan {s : State} (hw : s.win = []) (ho : s.closed = false) {g : Bytes}
    (h : ∀ k < g.length, examine s.cfg.slpMaxBody (g.take k) = .wait) : feed g s = scan { s with win := g } := by
  rcases List.eq_nil_or_concat' g with rfl | ⟨g, b, rfl⟩
  · exact (scan_of_wait (s := { s with win := [] }) rfl).symm ▸ by rw [feed_nil, ← hw]
  · have hg := feed_take_of_wait hw ho (g := g ++ [b]) (n := g.length) (by simp) fun k hk => h k (by simp; omega)
    rw [List.take_left] at hg
    rw [feed_append, hg, feed_cons, feed_nil, rxByteEffect_of_open (by exact ho)]

/-- The bytes of a frame before its last one are held in the window (R154, R166). -/
theorem feed_prefix_of_frame {s : State} (hw : s.win = []) (ho : s.closed = false) (hmax : s.cfg.slpMaxBody ≤ 65535)
    (p : Packet) (hp : p.body.length ≤ s.cfg.slpMaxBody) {k : Nat} (hk : k < 12 + p.body.length) :
    feed ((slpEncode p).take k) s = { s with win := (slpEncode p).take k } :=
  feed_take_of_wait hw ho (by simp; omega) fun _ _ => examine_prefix_of_frame hmax p hp (by omega)

/-- A frame that arrives in an empty window is accepted at its last byte and leaves the window empty (R154). -/
theorem feed_frame_eq {s : State} (hw : s.win = []) (ho : s.closed = false) (hmax : s.cfg.slpMaxBody ≤ 65535)
    (p : Packet) (hp : p.body.length ≤ s.cfg.slpMaxBody) : feed (slpEncode p) s = deliver p s := by
  rw [feed_eq_scan hw ho fun k hk => examine_prefix_of_frame hmax p hp (by simpa using hk)]
  have hacc : examine s.cfg.slpMaxBody (slpEncode p) = .accept p :=
    (examine_eq_accept_iff hmax _ _).mpr ⟨hp, [], by simp⟩
  rw [scan_of_accept (s := { s with win := slpEncode p }) hacc]
  have hdrop : (slpEncode p).drop (12 + p.body.length) = [] := List.drop_of_length_le (by simp)
  have hs : { s with win := ([] : Bytes) } = s := by rw [← hw]
  simp only [hdrop, hs]
  exact scan_of_wait (by simp [hw])

/-! ### Bytes without a signature -/

/-- Scanning bytes that contain no signature leaves the end of them, at most a beginning of a signature, and nothing else
changes (R167, R172). -/
theorem scan_of_no_signature {w : Bytes} (h : ∀ u v : Bytes, w ≠ u ++ slpSig ++ v) (s : State) :
    ∃ w' : Bytes, (w' = [] ∨ w' = [0xBE] ∨ w' = [0xBE, 0xEF]) ∧ w' <:+ w ∧
      scan { s with win := w } = { s with win := w' } := by
  induction w with
  | nil => exact ⟨[], .inl rfl, List.suffix_rfl, scan_of_wait rfl⟩
  | cons a w ih =>
    by_cases hm : (a :: w).take (min (a :: w).length 3) = slpSig.take (min (a :: w).length 3)
    · match w, hm, h with
      | [], hm, _ =>
        obtain rfl : a = 0xBE := by simpa [slpSig] using hm
        exact ⟨[0xBE], .inr (.inl rfl), List.suffix_rfl, scan_of_wait rfl⟩
      | [b], hm, _ =>
        obtain ⟨rfl, rfl⟩ : a = 0xBE ∧ b = 0xEF := by simpa [slpSig] using hm
        exact ⟨[0xBE, 0xEF], .inr (.inr rfl), List.suffix_rfl, scan_of_wait rfl⟩
      | b :: c :: r, hm, h =>
        obtain ⟨rfl, rfl, rfl⟩ : a = 0xBE ∧ b = 0xEF ∧ c = 0xED := by simpa [slpSig] using hm
        exact absurd (by simp [slpSig]) (h [] r)
    · have hr : examine s.cfg.slpMaxBody (a :: w) = .reject := by
        rw [examine_eq, if_neg (by simp), if_pos hm]
      obtain ⟨w', hw', hs, he⟩ := ih fun u v e => h (a :: u) v (by simp [e])
      exact ⟨w', hw', hs.trans (List.suffix_cons a w), (scan_of_reject (s := { s with win := a :: w }) hr).trans he⟩

/-- Bytes that arrive behind a window and make no signature with it leave at most a beginning of one, and nothing else
changes. -/
theorem feed_of_no_signature {s : State} (ho : s.closed = false) {bs w : Bytes}
    (hw : w = [] ∨ w = [0xBE] ∨ w = [0xBE, 0xEF]) (h : ∀ u v : Bytes, w ++ bs ≠ u ++ slpSig ++ v) :
    ∃ w' : Bytes, (w' = [] ∨ w' = [0xBE] ∨ w' = [0xBE, 0xEF]) ∧ feed bs { s with win := w } = { s with win := w' } := by
  induction bs generalizing w with
  | nil => exact ⟨w, hw, rfl⟩
  | cons b bs ih =>
    obtain ⟨w', hw', ⟨x, hx⟩, he⟩ := scan_of_no_signature (w := w ++ [b])
      (fun u v e => h u (v ++ bs) (by rw [← List.singleton_append, ← List.append_assoc, e]; simp)) s
    rw [feed_cons, rxByteEffect_of_open (by exact ho)]
    refine he ▸ ih hw' fun u v e => h (x ++ u) v ?_
    rw [← List.singleton_append, ← List.append_assoc, ← hx, List.append_assoc, e]
    simp

/-- A beginning of a signature in the window does not impair the frame that follows (R167). -/
theorem feed_frame_behind_signature_prefix {s : State} (ho : s.closed = false) {w : Bytes}
    (hw : w = [] ∨ w = [0xBE] ∨ w = [0xBE, 0xEF]) (p : Packet) :
    feed (slpEncode p) { s with win := w } = feed (slpEncode p) { s with win := [] } := by
  obtain ⟨bs, hb⟩ : ∃ bs, slpEncode p = 0xBE :: bs := ⟨_, rfl⟩
  have key {w : Bytes} (hw : w = [] ∨ w = [0xBE] ∨ w = [0xBE, 0xEF]) :
      rxByteEffect 0xBE { s with win := w } = { s with win := [0xBE] } := by
    rw [rxByteEffect_of_open (by exact ho)]
    rcases hw with rfl | rfl | rfl
    · exact scan_of_wait rfl
    · exact (scan_of_reject (s := { s with win := [0xBE, 0xBE] }) rfl).trans (scan_of_wait rfl)
    · refine (scan_of_reject (s := { s with win := [0xBE, 0xEF, 0xBE] }) rfl).trans ?_
      exact (scan_of_reject (s := { s with win := [0xEF, 0xBE] }) rfl).trans (scan_of_wait rfl)
  rw [hb, feed_cons, feed_cons, key hw, key (.inl rfl)]

/-- A frame whose body is over the bound is rejected at its tenth byte (R169), and where the bytes after its first contain
no signature it leaves at most a beginning of one. -/
theorem feed_frame_too_long {s : State} (hw : s.win = []) (ho : s.closed = false) (p : Packet)
    (hlong : s.cfg.slpMaxBody < p.body.length) (hp : p.body.length ≤ 65535)
    (h : ∀ u v : Bytes, (slpEncode p).drop 1 ≠ u ++ slpSig ++ v) :
    ∃ w : Bytes, (w = [] ∨ w = [0xBE] ∨ w = [0xBE, 0xEF]) ∧ feed (slpEncode p) s = { s with win := w } := by
  have hrej : examine s.cfg.slpMaxBody (slpHeader p) = .reject := by
    have := examine_header_append s.cfg.slpMaxBody p hp []
    rwa [List.append_nil, if_pos hlong] at this
  have hhead : feed (slpHeader p) s = scan { s with win := (slpHeader p).drop 1 } := by
    rw [feed_eq_scan hw ho fun k hk => examine_header_take _ p (by simpa using hk)]
    exact scan_of_reject (s := { s with win := slpHeader p }) hrej
  have hdrop : (slpEncode p).drop 1 = (slpHeader p).drop 1 ++ (p.body ++ be16 (crc16 (slpHeader p ++ p.body))) := by
    rw [slpEncode_eq]
    rfl
  obtain ⟨w', hw', ⟨x, hx⟩, he⟩ := scan_of_no_signature (w := (slpHeader p).drop 1)
    (fun u v e => h u (v ++ (p.body ++ be16 (crc16 (slpHeader p ++ p.body)))) (by rw [hdrop, e]; simp)) s
  rw [slpEncode_eq, feed_append, hhead, he]
  refine feed_of_no_signature ho hw' fun u v e => h (x ++ u) v ?_
  rw [hdrop, ← hx, List.append_assoc, e]
  simp

end Sys2Proof.Machine
end

