-- ==== Sys2Proof/Laws/Send.lean ====
section
/-! SUPPORT. The PADP sender: a sending step as one update, one step on a `PADP.TXSTEP`, `TICK` or `RX_BYTE` record, and the
number of fragments of a payload (43_padp_send.md R191 to R197). -/

namespace Sys2Proof.Machine

/-- Writing the fragment at `tx_off` changes the outputs only (R192, R67). -/
theorem writeFragment_eq (s : State) :
    s.writeFragment =
      { s with out := s.out ++ [.txBytes (slpEncode (padpPacket s.cfg s.txTxid s.currentFragment.body))] } := rfl

/-- The fragment being sent is a function of the configuration and the sender's registers. -/
theorem currentFragment_eq (s : State) :
    s.currentFragment = frag s.cfg.padpFragSize s.txBuf s.txAckreq s.txOff := rfl

/-- The flags of a fragment written as the rule's ORs (R191). -/
theorem mkFlags_or : ∀ first last ackreq : Bool,
    mkFlags first last (last && ackreq) 0 =
      ((if first = true then 0x80 else 0) ||| (if last = true then 0x40 else 0) |||
        (if last = true ∧ ackreq = true then 0x20 else 0) : Byte) := by
  decide +kernel

/-- A `PADP.TXSTEP` record where it is enabled. -/
theorem step_of_txstep {s : State} {rest : Bytes} (hv : s.cfg.Valid) (ho : s.closed = false)
    (hs : s.txState = .sending) (ht : s.trace = 0x42 :: rest) :
    step s = .next (txstepEffect { s with trace := rest, reply := none }) := by
  rw [step_of_record (i := .padpTxstep) (rest := rest) (by rw [ht]; rfl),
    exec_padpTxstep_of_enabled (by simp [State.txstepEnabled, ho, hs]), perform_of_valid (by exact hv)]

/-- A `TICK` record. -/
theorem step_of_tick {s : State} {rest : Bytes} (hv : s.cfg.Valid) (ht : s.trace = 0x41 :: rest) :
    step s = .next (tickEffect { s with trace := rest, reply := none }) := by
  rw [step_of_record (i := .tick) (rest := rest) (by rw [ht]; rfl), exec_eq_perform (by simp),
    perform_of_valid (by exact hv)]
  rfl

/-- An `RX_BYTE` record. -/
theorem step_of_rxByte {s : State} {b : Byte} {rest : Bytes} (hv : s.cfg.Valid) (ht : s.trace = 0x40 :: b :: rest) :
    step s = .next (rxByteEffect b { s with trace := rest, reply := none }) := by
  rw [step_of_record (i := .rxByte b) (rest := rest) (by rw [ht]; rfl), exec_eq_perform (by simp),
    perform_of_valid (by exact hv)]
  rfl

/-- The fragments of a payload cover it, and all but the last are needed (R191). -/
theorem fragmentCount_bounds {fragSize len : Nat} (h : 1 ≤ fragSize) :
    1 ≤ fragmentCount fragSize len ∧ len ≤ fragmentCount fragSize len * fragSize ∧
      (fragmentCount fragSize len - 1) * fragSize ≤ len ∧
      (0 < len → (fragmentCount fragSize len - 1) * fragSize < len) := by
  unfold fragmentCount
  have h1 : (len + fragSize - 1) / fragSize * fragSize ≤ len + fragSize - 1 := Nat.div_mul_le_self _ _
  have h2 : len + fragSize - 1 < ((len + fragSize - 1) / fragSize + 1) * fragSize := by
    have := Nat.lt_mul_div_succ (len + fragSize - 1) (show 0 < fragSize by omega)
    rwa [Nat.mul_comm] at this
  generalize (len + fragSize - 1) / fragSize = q at h1 h2 ⊢
  cases q with
  | zero => simp at h1 h2 ⊢; omega
  | succ r =>
    have hm : max 1 (r + 1) = r + 1 := by omega
    have h3 : (r + 1 + 1) * fragSize = r * fragSize + fragSize + fragSize := by ring
    have h4 : (r + 1) * fragSize = r * fragSize + fragSize := by ring
    rw [hm]
    simp only [Nat.add_sub_cancel]
    omega

/-- The empty payload is one fragment. -/
theorem fragmentCount_zero {fragSize : Nat} (h : 1 ≤ fragSize) : fragmentCount fragSize 0 = 1 := by
  unfold fragmentCount
  rw [Nat.div_eq_of_lt (by omega)]
  rfl

end Sys2Proof.Machine
end

