-- ==== Sys2Proof/Tests/Slice0.lean ====
section
/-! SUPPORT. Tests with expected results from spec/95_test_vectors.md (each names its vector) and from the tables of
spec/30_encoding.md, and one witness for the hypotheses of each statement that has some. -/

namespace Sys2Proof.Tests

set_option Elab.async false

open Sys2Proof Machine

/-! ### Configurations and small states -/

/-- CFG-A of the vectors. -/
def cfgA : Config where
  slpMaxBody := 16
  slpTypePadp := 0x02
  slpSubs := [0x03]
  padpLocalSocket := 0x03
  padpRemoteSocket := 0x03
  padpFragSize := 4
  padpMaxPayload := 65535
  padpAckTimeout := 2
  padpMaxRetries := 1

/-- CFG-B: the smallest legal `SLP_MAX_BODY` for fragment size 4. -/
def cfgB : Config := { cfgA with slpMaxBody := 7 }

/-- The reset state under CFG-A. -/
def sA : State := { State.reset with cfg := cfgA }

/-- The reset state under CFG-B. -/
def sB : State := { State.reset with cfg := cfgB }

/-- LE after `CANCEL`. -/
def sClosed : State := { sA with closed := true }

/-- A send of `DE AD` with transaction id 7, accepted and not yet written. -/
def sSending : State := { sB with txState := .sending, txTxid := 0x07, txAckreq := true, txBuf := [0xDE, 0xAD] }

/-- The same send waiting for its ack. -/
def sWaiting : State := { sSending with txState := .waitAck, txTimer := 2 }

/-- The receiver after the first fragment of V-PADP-R3. -/
def sAssembling : State :=
  { sA with rxState := .assembling, rxTxid := 0x10, rxTotal := 6, rxBuf := [0x01, 0x02, 0x03, 0x04] }

/-- The packet of V-SLP-1. -/
def goodPacket : Packet := ⟨0x03, 0x03, 0x02, 0x11, [0xC0, 0x00, 0x02, 0xAA, 0x55]⟩

/-- The 17 bytes of V-SLP-1. -/
def goodFrame : Bytes :=
  [0xBE, 0xEF, 0xED, 0x03, 0x03, 0x02, 0x00, 0x05, 0x11, 0xB8, 0xC0, 0x00, 0x02, 0xAA, 0x55, 0xB2, 0xD5]

/-- The next state of an outcome. -/
def after (o : Host.Outcome State Fault Refusal) : Option State :=
  match o with
  | .next t => some t
  | .fault _ => none
  | .refused _ => none

/-! ### Well-formedness: each check refuses an ill-formed term -/

theorem test_bodyFits_boundary :
    bodyFits (List.replicate 65535 0) = true ∧ bodyFits (List.replicate 65536 0) = false :=
  ⟨decide_eq_true (by rw [List.length_replicate]; decide), decide_eq_false (by rw [List.length_replicate]; decide)⟩

theorem test_fragmentFits_boundary :
    fragmentFits (List.replicate 65532 0) = true ∧ fragmentFits (List.replicate 65533 0) = false :=
  ⟨decide_eq_true (by rw [List.length_replicate]; decide), decide_eq_false (by rw [List.length_replicate]; decide)⟩

theorem test_wf_slpTx_long_body : (Instr.slpTx ⟨0, 0, 0, 0, List.replicate 65536 0⟩).wf = false :=
  test_bodyFits_boundary.2

theorem test_wf_padpSend_long_payload : (Instr.padpSend 0 0 (List.replicate 65536 0)).wf = false :=
  test_bodyFits_boundary.2

theorem test_wf_slpFrame_long_body : (Instr.slpFrame ⟨0, 0, 0, 0, List.replicate 65536 0⟩).wf = false :=
  test_bodyFits_boundary.2

theorem test_wf_fragment_long_data :
    (Instr.padpDataFirst 0 0 0 (List.replicate 65533 0)).wf = false ∧
      (Instr.padpDataOnly 0 true 0 0 (List.replicate 65533 0)).wf = false ∧
      (Instr.padpDataMid 0 0 0 (List.replicate 65533 0)).wf = false ∧
      (Instr.padpDataLast 0 true 0 0 (List.replicate 65533 0)).wf = false ∧
      (Instr.padpAck 0 0 0 (List.replicate 65533 0)).wf = false ∧
      (Instr.padpIllegal 0 0 0 (List.replicate 65533 0)).wf = false :=
  have h := test_fragmentFits_boundary.2
  ⟨h, h, h, h, h, h⟩

theorem test_wf_reserved_assigned_code : (Instr.reserved 0x42).wf = false := by decide

/-! ### Decoding: a word of every row, written out from R90, R100, R106 and R107 -/

theorem test_decode_nop : decode .record [0x00] = .ok .nop := by decide

theorem test_decode_crcClr : decode .record [0x01] = .ok .crcClr := by decide

theorem test_decode_crcUpd : decode .record [0x02, 0x31] = .ok (.crcUpd 0x31) := by decide

theorem test_decode_crcRd : decode .record [0x03] = .ok .crcRd := by decide

/-- The high byte first (P6 step 4). -/
theorem test_decode_crcChk : decode .record [0x04, 0xB2, 0xD5] = .ok (.crcChk 0xB2D5) := by decide

theorem test_decode_slpTx :
    decode .record [0x10, 0x01, 0x02, 0x00, 0xFF, 0x00, 0x01, 0x7E] = .ok (.slpTx ⟨0x01, 0x02, 0x00, 0xFF, [0x7E]⟩) := by
  decide

/-- P2 step 1. -/
theorem test_decode_padpSend :
    decode .record [0x20, 0x07, 0x01, 0x00, 0x02, 0xDE, 0xAD] = .ok (.padpSend 0x07 0x01 [0xDE, 0xAD]) := by decide

theorem test_decode_status : decode .record [0x30] = .ok .status := by decide

theorem test_decode_rxByte : decode .record [0x40, 0xBE] = .ok (.rxByte 0xBE) := by decide

theorem test_decode_tick : decode .record [0x41] = .ok .tick := by decide

theorem test_decode_padpTxstep : decode .record [0x42] = .ok .padpTxstep := by decide

theorem test_decode_cancel : decode .record [0xF0] = .ok .cancel := by decide

theorem test_decode_close : decode .record [0xF1] = .ok .close := by decide

theorem test_decode_reset : decode .record [0xFF] = .ok .reset := by decide

theorem test_decode_reserved : decodeRecord [0x05, 0x00] = .ok (.reserved 0x05, []) := by decide

/-- V-TX-6. -/
theorem test_decode_slpFrame : decode .frame goodFrame = .ok (.slpFrame goodPacket) := by decide +kernel

theorem test_decode_padpDataFirst :
    decode (.fragment 0x10) [0x80, 0x00, 0x06, 0x01, 0x02] = .ok (.padpDataFirst 0x10 0 0x0006 [0x01, 0x02]) := by decide

/-- V-PADP-R18: reserved bits all set, no acknowledgement asked. -/
theorem test_decode_padpDataOnly :
    decode (.fragment 0x10) [0xDF, 0x00, 0x01, 0x5A] = .ok (.padpDataOnly 0x10 false 0x1F 0x0001 [0x5A]) := by decide

theorem test_decode_padpDataMid :
    decode (.fragment 0x10) [0x00, 0x00, 0x04, 0x05] = .ok (.padpDataMid 0x10 0 0x0004 [0x05]) := by decide

theorem test_decode_padpDataLast :
    decode (.fragment 0x10) [0x60, 0x00, 0x04, 0x05, 0x06] = .ok (.padpDataLast 0x10 true 0 0x0004 [0x05, 0x06]) := by
  decide

/-- V-PADP-R27. -/
theorem test_decode_padpAck :
    decode (.fragment 0x10) [0x3F, 0x12, 0x34, 0x99] = .ok (.padpAck 0x10 0x1F 0x1234 [0x99]) := by decide

theorem test_decode_padpIllegal :
    decode (.fragment 0x10) [0xA0, 0x00, 0x06, 0x01, 0x02] = .ok (.padpIllegal 0x10 0 0x0006 [0x01, 0x02]) := by decide

theorem test_decode_truncated : decode .record [0x04, 0xB2] = .error (.truncatedRecord 0x04) := by decide

theorem test_decode_bad_crc :
    decode .frame [0xBE, 0xEF, 0xED, 0x00, 0x00, 0x00, 0x00, 0x00, 0x00, 0x9A, 0xAB, 0x37] = .error .badCrc := by
  decide +kernel

theorem test_decode_bad_header_sum :
    decode .frame [0xBE, 0xEF, 0xED, 0x00, 0x00, 0x00, 0x00, 0x00, 0x00, 0x9B, 0xAB, 0x36] = .error .badHeaderChecksum := by
  decide +kernel

theorem test_decode_short_fragment : decode (.fragment 0x10) [0x80, 0x00] = .error .shortFragment := by decide

/-- Bit 0 is the least significant bit of the first byte: `04 B2 D5` is 0xD5B204. -/
theorem test_table_word : decodeTableWord 24 0xD5B204 = some (.crcChk 0xB2D5) := by decide

/-- Operand bytes the number does not reach are zeros. -/
theorem test_table_word_zeros : decodeTableWord 8 0x10 = some (.slpTx ⟨0, 0, 0, 0, []⟩) := by decide

/-! ### The CRC unit -/

/-- V-CRC-4, V-CRC-5, V-CRC-9, V-CRC-12. -/
theorem test_crc16_vectors :
    crc16 [0x01] = 0x1021 ∧ crc16 [0x80] = 0x9188 ∧ crc16 [0xFF, 0xFF] = 0x1D0F ∧
      crc16 [0x02, 0x00, 0x01, 0x01, 0x00, 0x00, 0x00, 0x00, 0x00, 0x00] = 0x2138 := by decide +kernel

/-- R133's example. -/
theorem test_crcUpd : (after (exec (.crcUpd 0x31) sA)).map State.crc = some 0x2672 := by decide +kernel

theorem test_crcClr : (after (exec .crcClr { sA with crc := 0x31C3 })).map State.crc = some 0x0000 := by decide +kernel

/-- P6 step 3. -/
theorem test_crcRd :
    (after (exec .crcRd { sA with crc := 0xB2D5 })).map State.reply = some (some ⟨.ok, .crc 0xB2D5⟩) := by decide +kernel

/-- R135's example: the bytes swapped do not compare equal. -/
theorem test_crcChk :
    (after (exec (.crcChk 0x31C3) { sA with crc := 0x31C3 })).map State.reply = some (some ⟨.ok, .equal true⟩) ∧
      (after (exec (.crcChk 0xC331) { sA with crc := 0x31C3 })).map State.reply = some (some ⟨.ok, .equal false⟩) := by
  decide +kernel

/-- The CRC unit works when closed (R257). -/
theorem test_crcUpd_closed : (after (exec (.crcUpd 0x01) sClosed)).map State.crc = some 0x1021 := by decide +kernel

/-! ### The SLP unit -/

/-- V-TX-1. -/
theorem test_slpTx :
    (after (exec (.slpTx ⟨0x01, 0x02, 0x00, 0xFF, [0x00]⟩) sA)).map (fun t => (t.out, t.reply)) =
      some ([.txBytes [0xBE, 0xEF, 0xED, 0x01, 0x02, 0x00, 0x00, 0x01, 0xFF, 0x9D, 0x00, 0x35, 0xF1]],
        some ⟨.ok, .none⟩) := by decide +kernel

/-- V-TX-4. -/
theorem test_slpTx_refused :
    after (exec (.slpTx ⟨0x03, 0x03, 0x02, 0x00, List.replicate 8 0x00⟩) sB) =
      some { sB with reply := some ⟨.refused, .none⟩ } := by decide +kernel

/-- V-SLP-1: the last byte delivers the message. -/
theorem test_rxByte_accepts :
    after (exec (.rxByte 0xD5) { sA with win := goodFrame.take 16 }) =
      some { sA with out := [.padpRxMsg 0x11 [0xAA, 0x55]] } := by decide +kernel

/-- V-SLP-4: the CRC fails at the last byte, and every byte is dropped in that step. -/
theorem test_rxByte_drops :
    after (exec (.rxByte 0xD5) { sA with win := [0xBE, 0xEF, 0xED, 0x03, 0x03, 0x02, 0x00, 0x05, 0x11, 0xB8, 0xC0, 0x01,
      0x02, 0xAA, 0x55, 0xB2] }) = some sA := by decide +kernel

/-- V-SLP-7. -/
theorem test_slpFrame_outside :
    (after (exec (.slpFrame ⟨0x01, 0x02, 0x00, 0xFF, [0x00]⟩) { sA with cfg := { cfgA with slpSubs := [0x03, 0x01] } })).map
      State.out = some [.slpRx 0x01 0x02 0x00 0xFF [0x00]] := by decide +kernel

/-- V-SLP-11: a truncated frame does not hide the next one. -/
theorem test_slpFrame_resynchronises :
    after (exec (.slpFrame goodPacket) { sA with win := goodFrame.take 8 }) =
      some { sA with out := [.padpRxMsg 0x11 [0xAA, 0x55]] } := by decide +kernel

/-! ### The PADP sender -/

/-- R190's example. -/
theorem test_padpSend :
    after (exec (.padpSend 0x07 0x01 [0xDE, 0xAD]) sB) = some { sSending with reply := some ⟨.ok, .none⟩ } := by
  decide +kernel

/-- V-PADP-S13: the closed test comes before the test of the reserved bits. -/
theorem test_padpSend_closed :
    (after (exec (.padpSend 0x07 0x02 []) sClosed)).map State.reply = some (some ⟨.closed, .none⟩) ∧
      (after (exec (.padpSend 0x07 0x02 []) sA)).map State.reply = some (some ⟨.refused, .none⟩) := by decide +kernel

/-- P2 step 2. -/
theorem test_padpTxstep :
    after (exec .padpTxstep sSending) =
      some { sWaiting with out := [.txBytes [0xBE, 0xEF, 0xED, 0x03, 0x03, 0x02, 0x00, 0x05, 0x07, 0xAE, 0xE0, 0x00, 0x02,
        0xDE, 0xAD, 0x11, 0xD0]] } := by decide +kernel

/-- V-PADP-S7, the second of three fragments. -/
theorem test_padpTxstep_middle :
    after (exec .padpTxstep { sB with txState := .sending, txTxid := 0x30, txAckreq := true, txOff := 4,
                                      txBuf := [1, 2, 3, 4, 5, 6, 7, 8, 9] }) =
      some { sB with txState := .sending, txTxid := 0x30, txAckreq := true, txOff := 8,
                     txBuf := [1, 2, 3, 4, 5, 6, 7, 8, 9],
                     out := [.txBytes [0xBE, 0xEF, 0xED, 0x03, 0x03, 0x02, 0x00, 0x07, 0x30, 0xD9, 0x00, 0x00, 0x04, 0x05,
                       0x06, 0x07, 0x08, 0x21, 0x80]] } := by decide +kernel

/-- P2 step 4: the retransmission. -/
theorem test_tick_retransmits :
    after (exec .tick { sWaiting with txTimer := 1 }) =
      some { sWaiting with txRetries := 1, out := [.txBytes [0xBE, 0xEF, 0xED, 0x03, 0x03, 0x02, 0x00, 0x05, 0x07, 0xAE,
        0xE0, 0x00, 0x02, 0xDE, 0xAD, 0x11, 0xD0]] } := by decide +kernel

/-- P2 step 6: the timeout. -/
theorem test_tick_times_out :
    after (exec .tick { sWaiting with txTimer := 1, txRetries := 1 }) =
      some { sWaiting with txState := .idle, txTimer := 0, txRetries := 1, out := [.padpTxDone .timeout] } := by
  decide +kernel

/-- V-PADP-S14: an ack with another transaction id does nothing; R196's example. -/
theorem test_padpAck :
    after (exec (.padpAck 0x08 0 0 []) sWaiting) = some sWaiting ∧
      after (exec (.padpAck 0x07 0 0 []) sWaiting) =
        some { sWaiting with txState := .idle, out := [.padpTxDone .ok] } := by decide +kernel

/-! ### The PADP receiver -/

/-- R223's example. -/
theorem test_padpDataFirst : after (exec (.padpDataFirst 0x10 0 6 [1, 2, 3, 4]) sA) = some sAssembling := by
  decide +kernel

/-- V-PADP-R22: a first fragment that already holds the total. -/
theorem test_padpDataFirst_whole :
    after (exec (.padpDataFirst 0x10 0 4 [1, 2, 3, 4]) sA) = some { sA with out := [.padpRxErr .protocol] } := by
  decide +kernel

/-- V-PADP-R19. -/
theorem test_padpDataOnly :
    after (exec (.padpDataOnly 0x11 true 0 2 [0xAA, 0x55]) sA) =
      some { sA with out := [.padpRxMsg 0x11 [0xAA, 0x55], .txBytes [0xBE, 0xEF, 0xED, 0x03, 0x03, 0x02, 0x00, 0x03, 0x11,
        0xB6, 0x20, 0x00, 0x00, 0x6F, 0x22]] } := by decide +kernel

/-- V-PADP-R26: a whole message while another is being assembled. -/
theorem test_padpDataOnly_assembling :
    after (exec (.padpDataOnly 0x10 false 0 1 [0x5A]) sAssembling) = some { sA with out := [.padpRxErr .protocol] } := by
  decide +kernel

/-- R225's example. -/
theorem test_padpDataMid :
    after (exec (.padpDataMid 0x10 0 4 [5]) sAssembling) = some { sAssembling with rxBuf := [1, 2, 3, 4, 5] } := by
  decide +kernel

/-- V-PADP-R8: the total is reached without `LAST`. -/
theorem test_padpDataMid_total :
    after (exec (.padpDataMid 0x10 0 4 [5, 6]) sAssembling) = some { sA with out := [.padpRxErr .protocol] } := by
  decide +kernel

/-- V-PADP-R21. -/
theorem test_padpDataLast :
    after (exec (.padpDataLast 0x10 false 0 4 [5, 6]) sAssembling) =
      some { sA with out := [.padpRxMsg 0x10 [1, 2, 3, 4, 5, 6]] } := by decide +kernel

/-- V-PADP-R5: a wrong offset. -/
theorem test_padpDataLast_offset :
    after (exec (.padpDataLast 0x10 false 0 3 [5, 6]) sAssembling) = some { sA with out := [.padpRxErr .protocol] } := by
  decide +kernel

/-- V-PADP-R11. -/
theorem test_padpIllegal :
    after (exec (.padpIllegal 0x10 0 6 [1, 2]) sAssembling) = some { sA with out := [.padpRxErr .protocol] } := by
  decide +kernel

/-! ### System operations -/

/-- P5 step 5: all the status bits but `closed`. -/
theorem test_status :
    (after (exec .status { sAssembling with txState := .waitAck, win := [0xBE] })).map State.reply =
      some (some ⟨.ok, .statusByte 0x1C⟩) := by decide +kernel

/-- V-SYS-6, V-SYS-7. -/
theorem test_nop_and_reserved :
    after (exec .nop sWaiting) = some { sWaiting with reply := some ⟨.ok, .none⟩ } ∧
      after (exec (.reserved 0x05) sWaiting) = some { sWaiting with reply := some ⟨.refused, .none⟩ } := by decide +kernel

/-- P5 step 6: the two events in their order. -/
theorem test_cancel :
    after (exec .cancel { sAssembling with txState := .waitAck, win := [0xBE] }) =
      some { sClosed with out := [.padpTxDone .cancelled, .padpRxErr .cancelled], reply := some ⟨.ok, .none⟩ } := by
  decide +kernel

/-- V-SYS-9. -/
theorem test_close : after (exec .close sClosed) = some { sClosed with reply := some ⟨.ok, .none⟩ } := by decide +kernel

/-- V-SYS-8: no `PADP_TX_DONE`. -/
theorem test_reset : after (exec .reset { sWaiting with closed := true }) = some sB := by decide +kernel

/-- The numbers of R265. -/
theorem test_statusCode :
    [Status.ok, .checksum, .protocol, .timeout, .cancelled, .busy, .closed, .refused].map statusCode =
      [0, 1, 2, 3, 4, 5, 6, 7] := by decide

/-- A step takes the first record of the trace. -/
theorem test_step :
    (after (step { sA with trace := [0x02, 0x31, 0x03] })).map (fun t => (t.crc, t.trace)) = some (0x2672, [0x03]) := by
  decide +kernel

/-! ### Witnesses: states and operands that meet the hypotheses of each statement -/

/-- The configurations of the vectors are legal. -/
theorem witness_valid : sA.cfg.Valid ∧ sB.cfg.Valid ∧ sClosed.cfg.Valid ∧ sSending.cfg.Valid ∧ sAssembling.cfg.Valid := by
  decide

/-- EncodingsDecodeBack: every kind of well-formed instruction, bodies and data at their largest. -/
theorem witness_EncodingsDecodeBack :
    (Instr.slpTx ⟨1, 2, 0, 3, List.replicate 65535 0⟩).wf = true ∧ (Instr.padpSend 7 1 (List.replicate 65535 0)).wf = true ∧
      (Instr.slpFrame ⟨1, 2, 0, 3, List.replicate 65535 0⟩).wf = true ∧
      (Instr.padpDataOnly 7 true 0x1F 0xFFFF (List.replicate 65532 0)).wf = true ∧ (Instr.reserved 0x05).wf = true ∧
      Instr.nop.wf = true :=
  ⟨test_bodyFits_boundary.1, test_bodyFits_boundary.1, test_bodyFits_boundary.1, test_fragmentFits_boundary.1, by decide,
    rfl⟩

/-- TraceIsConcatenationOfRecords. -/
theorem witness_TraceIsConcatenationOfRecords :
    ((Instr.crcChk 0xB2D5).wf = true ∧ (Instr.crcChk 0xB2D5).space = .record ∧ (∀ c, Instr.crcChk 0xB2D5 ≠ .reserved c)) ∧
      (Instr.reserved 0xEF).wf = true := ⟨⟨rfl, rfl, by simp⟩, by decide⟩

/-- DecodedRecordReencodes: a record with something behind it, and a reserved code. -/
theorem witness_DecodedRecordReencodes :
    decodeRecord [0x02, 0x31, 0x03] = .ok (.crcUpd 0x31, [0x03]) ∧
      decodeRecord [0x05, 0x00] = .ok (.reserved 0x05, []) := by decide

/-- DecodedWireReencodes: the shortest frame (V-TX-2), and the shortest fragment. -/
theorem witness_DecodedWireReencodes :
    decodeFrame [0xBE, 0xEF, 0xED, 0x00, 0x00, 0x00, 0x00, 0x00, 0x00, 0x9A, 0xAB, 0x36] = .ok (.slpFrame ⟨0, 0, 0, 0, []⟩) ∧
      ([0xFF, 0x00, 0x00] : Bytes).length ≤ 65535 ∧
      decodeFragment 0x10 [0xFF, 0x00, 0x00] = .ok (.padpDataOnly 0x10 true 0x1F 0x0000 []) := by decide +kernel

/-- StepRunsTheNextRecord: both forms. -/
theorem witness_StepRunsTheNextRecord :
    decodeRecord { sA with trace := [0x40, 0xBE, 0x41] }.trace = .ok (.rxByte 0xBE, [0x41]) ∧
      ((Instr.rxByte 0xBE).wf = true ∧ (Instr.rxByte 0xBE).space = .record ∧ (∀ c, Instr.rxByte 0xBE ≠ .reserved c) ∧
        { sA with trace := [0x40, 0xBE, 0x41] }.trace = encode (.rxByte 0xBE) ++ [0x41]) :=
  ⟨by decide, rfl, rfl, by simp, rfl⟩

/-- StepWithoutRecord: with a fragment to write, with none, and closed. -/
theorem witness_StepWithoutRecord :
    (sSending.cfg.Valid ∧ sSending.trace = [] ∧ sSending.closed = false ∧ sSending.txState = .sending) ∧
      (sA.cfg.Valid ∧ sA.trace = [] ∧ sA.txState = .idle) ∧
      (sClosed.cfg.Valid ∧ sClosed.trace = [] ∧ sClosed.closed = true) := by decide

/-- TruncatedRecordIsRefused: a record cut at its second byte, and one without its last byte. -/
theorem witness_TruncatedRecordIsRefused :
    (Instr.crcChk 0xB2D5).wf = true ∧ (Instr.crcChk 0xB2D5).space = .record ∧ (∀ c, Instr.crcChk 0xB2D5 ≠ .reserved c) ∧
      2 < (encode (.crcChk 0xB2D5)).length ∧
      { sA with trace := [0x04] }.trace = (encode (.crcChk 0xB2D5)).take 1 ∧
      { sA with trace := [0x04, 0xB2] }.trace = (encode (.crcChk 0xB2D5)).take 2 := ⟨rfl, rfl, by simp, by decide, rfl, rfl⟩

/-- PlacedWordRunsNext. -/
theorem witness_PlacedWordRunsNext :
    decodeTableWord 8 0x00 = some .nop ∧ decodeTableWord 24 0xD5B204 = some (.crcChk 0xB2D5) ∧
      decodeTableWord 8 0x05 = some (.reserved 0x05) := by decide

/-- CrcIsLinear: two sequences of one length. -/
theorem witness_CrcIsLinear : ([0x31, 0x32] : Bytes).length = ([0xFF, 0x00] : Bytes).length := rfl

/-- CrcDetectsEverySingleBitError: the first bit of the message and the last bit of the trailer. -/
theorem witness_CrcDetectsEverySingleBitError :
    crcAccept [0x41] 0x58E5 = true ∧
      (7 < 8 ∧ 0 < ([0x41] : Bytes).length + 2 ∧ flipBit ([0x41] ++ be16 0x58E5) 0 7 = [0xC1] ++ be16 0x58E5) ∧
      (0 < 8 ∧ 2 < ([0x41] : Bytes).length + 2 ∧ flipBit ([0x41] ++ be16 0x58E5) 2 0 = [0x41] ++ be16 0x58E4) := by
  decide +kernel

/-- CrcWrittenOnlyByItsCommands. -/
theorem witness_CrcWrittenOnlyByItsCommands :
    ∃ t, exec .cancel { sA with crc := 0x1021 } = .next t ∧ Instr.cancel ≠ .crcClr ∧ (∀ b, Instr.cancel ≠ .crcUpd b) ∧
      Instr.cancel ≠ .reset := ⟨_, rfl, by simp, by simp, by simp⟩

/-- CrcInfluencesNothingElse. -/
theorem witness_CrcInfluencesNothingElse :
    ∃ t, exec (.slpTx goodPacket) sA = .next t ∧ Instr.slpTx goodPacket ≠ .crcRd ∧
      (∀ v, Instr.slpTx goodPacket ≠ .crcChk v) := ⟨_, rfl, by simp, by simp⟩

/-- SlpTxOutcomes: the record, and the three branches, the body at and just over its bound. -/
theorem witness_SlpTxOutcomes :
    ((0x00 : Byte) ++ (0x05 : Byte)).toNat = goodPacket.body.length ∧ (sClosed.cfg.Valid ∧ sClosed.closed = true) ∧
      (sB.cfg.Valid ∧ sB.closed = false ∧ sB.cfg.slpMaxBody < (List.replicate 8 (0 : Byte)).length) ∧
      (sB.cfg.Valid ∧ sB.closed = false ∧ ¬ sB.cfg.slpMaxBody < (List.replicate 7 (0 : Byte)).length) := by decide

/-- SlpEncodeLayout: the longest body. -/
theorem witness_SlpEncodeLayout : (⟨0, 0, 0, 0, List.replicate 65535 0⟩ : Packet).body.length ≤ 65535 := by
  rw [List.length_replicate]

/-- DeframerAcceptsExactlyFrames: the largest bound, and a window that is accepted. -/
theorem witness_DeframerAcceptsExactlyFrames :
    65535 ≤ 65535 ∧ examine 16 (goodFrame ++ [0xBE]) = .accept goodPacket := by decide +kernel

/-- RxByteOutcome and RxByteFrame: open and closed. -/
theorem witness_RxByteOutcome : (sA.cfg.Valid ∧ sA.closed = false) ∧ (sClosed.cfg.Valid ∧ sClosed.closed = true) := by decide

/-- WindowPendingAfterRxByte: from a window no run reaches. -/
theorem witness_WindowPendingAfterRxByte :
    ∃ t, { sA with win := [0x00, 0xBE] }.closed = false ∧ exec (.rxByte 0xEF) { sA with win := [0x00, 0xBE] } = .next t :=
  ⟨_, rfl, rfl⟩

/-- FrameRoundTrip and ReceivedFragmentRunsItsRow: the longest body within the bound, the shortest, and the shortest over
the bound. -/
theorem witness_FrameRoundTrip :
    (sA.cfg.Valid ∧ sA.win = [] ∧ sA.closed = false ∧
      (⟨0x03, 0x03, 0x02, 0x12, List.replicate 16 0⟩ : Packet).body.length ≤ sA.cfg.slpMaxBody ∧
      (⟨0x03, 0x03, 0x02, 0x12, []⟩ : Packet).body.length ≤ sA.cfg.slpMaxBody) ∧
    sA.cfg.slpMaxBody < (List.replicate 17 (0 : Byte)).length ∧ (List.replicate 17 (0 : Byte)).length ≤ 65535 ∧
      ∀ u v : Bytes, (slpEncode ⟨0x03, 0x03, 0x02, 0x12, List.replicate 17 0⟩).drop 1 ≠ u ++ slpSig ++ v := by
  refine ⟨by decide, by decide, by decide, fun u v h => ?_⟩
  have hn : 0xBE ∉ (slpEncode ⟨0x03, 0x03, 0x02, 0x12, List.replicate 17 0⟩).drop 1 := by decide +kernel
  rw [h] at hn
  exact hn (by simp [slpSig])

/-- DeliveryFiltersBySocket: a socket without subscriber, one with a subscriber outside, the local one. -/
theorem witness_DeliveryFiltersBySocket :
    (sA.cfg.Valid ∧ sA.win = [] ∧ sA.closed = false ∧ goodPacket.body.length ≤ sA.cfg.slpMaxBody) ∧
      (0x01 ∉ sA.cfg.slpSubs) ∧ (0x01 ∈ { cfgA with slpSubs := [0x03, 0x01] }.slpSubs ∧ (0x01 : Byte) ≠ cfgA.padpLocalSocket) ∧
      { cfgA with slpSubs := [0x03, 0x01] }.Valid ∧ goodPacket.dst = sA.cfg.padpLocalSocket := by decide

/-- BitFlipDropsOnlyItsFrame: V-SLP-4 (byte 11), and the first and the last body byte. -/
theorem witness_BitFlipDropsOnlyItsFrame :
    (sA.cfg.Valid ∧ sA.win = [] ∧ sA.closed = false ∧ goodPacket.body.length ≤ sA.cfg.slpMaxBody) ∧
      ∀ k ∈ [10, 11, 14], 10 ≤ k ∧ k < 10 + goodPacket.body.length ∧
        ∀ u v : Bytes, (flipBit (slpEncode goodPacket) k 0).drop 1 ≠ u ++ slpSig ++ v := by
  refine ⟨by decide, fun k hk => ⟨?_, ?_, fun u v h => ?_⟩⟩
  · revert k; decide
  · revert k; decide
  · have hn : ∀ k ∈ [10, 11, 14], 0xBE ∉ (flipBit (slpEncode goodPacket) k 0).drop 1 := by decide +kernel
    refine hn k hk ?_
    rw [h]
    simp [slpSig]

/-- PadpSendOutcomes: the record, and the five branches, the payload at and just over its bound. -/
theorem witness_PadpSendOutcomes :
    ((0x00 : Byte) ++ (0x02 : Byte)).toNat = ([0xDE, 0xAD] : Bytes).length ∧ (sClosed.cfg.Valid ∧ sClosed.closed = true) ∧
      (sA.cfg.Valid ∧ sA.closed = false ∧ (0x02 : Byte) >>> 1 ≠ 0) ∧
      (sSending.cfg.Valid ∧ sSending.closed = false ∧ (0x01 : Byte) >>> 1 = 0 ∧ sSending.txState ≠ .idle) ∧
      { cfgB with padpMaxPayload := 8 }.Valid ∧ 8 < (List.replicate 9 (0 : Byte)).length ∧
      ¬ 8 < (List.replicate 8 (0 : Byte)).length := by decide

/-- FragmentsCutThePayload: fragments of one byte, and the empty payload. -/
theorem witness_FragmentsCutThePayload :
    1 ≤ 1 ∧ ([1, 2, 3] : Bytes).length ≤ 65535 ∧ fragmentCount 1 3 = 3 ∧ ([] : Bytes).length ≤ 65535 ∧
      fragmentCount 1 0 = 1 := by decide

/-- TxstepWritesOneFragment: a fragment with more to come, a last one with and without acknowledgement. -/
theorem witness_TxstepWritesOneFragment :
    (sSending.cfg.Valid ∧ sSending.closed = false ∧ sSending.txState = .sending) ∧
      (frag 4 [1, 2, 3, 4, 5] true 0).last = false ∧ (frag 4 [1, 2, 3, 4, 5] true 4).last = true ∧
      (frag 4 [1, 2, 3, 4] true 0).last = true := by decide

/-- TxstepRefusedWhereNotEnabled: idle, waiting, and closed in a state no run reaches. -/
theorem witness_TxstepRefusedWhereNotEnabled :
    (sA.cfg.Valid ∧ ¬ (sA.closed = false ∧ sA.txState = .sending)) ∧
      (sWaiting.cfg.Valid ∧ ¬ (sWaiting.closed = false ∧ sWaiting.txState = .sending)) ∧
      ¬ ({ sSending with closed := true }.closed = false ∧ { sSending with closed := true }.txState = .sending) := by decide

/-- TickOutcomes: outside the wait, before an expiry, at an expiry with and without a retry left. -/
theorem witness_TickOutcomes :
    (sA.cfg.Valid ∧ (sA.txState = .waitAck → 1 ≤ sA.txTimer)) ∧
      (sWaiting.cfg.Valid ∧ (sWaiting.txState = .waitAck → 1 ≤ sWaiting.txTimer) ∧ 1 < sWaiting.txTimer) ∧
      (1 ≤ { sWaiting with txTimer := 1 }.txTimer ∧ sWaiting.txRetries < sWaiting.cfg.padpMaxRetries ∧
        ¬ { sWaiting with txRetries := 1 }.txRetries < sWaiting.cfg.padpMaxRetries) := by decide

/-- RetransmissionIsByteIdentical. -/
theorem witness_RetransmissionIsByteIdentical :
    ∃ t, exec .padpTxstep sSending = .next t ∧ t.txState = .waitAck ∧ 0 < t.cfg.padpMaxRetries :=
  ⟨_, rfl, by decide +kernel, by decide +kernel⟩

/-- UnacknowledgedSendTimesOut: before the last tick and at it. -/
theorem witness_UnacknowledgedSendTimesOut :
    sSending.cfg.Valid ∧ sSending.closed = false ∧ sSending.txState = .sending ∧ sSending.txAckreq = true ∧
      sSending.txBuf.length ≤ sSending.txOff + sSending.cfg.padpFragSize ∧
      3 < (1 + sSending.cfg.padpMaxRetries) * sSending.cfg.padpAckTimeout ∧
      4 = (1 + sSending.cfg.padpMaxRetries) * sSending.cfg.padpAckTimeout := by decide

/-- AckOutcomes: a fragment with every reserved bit set, a matching ack, one that does not match, and closed. -/
theorem witness_AckOutcomes :
    (0x3F : Byte) &&& 0xE0 = 0x20 ∧
      (sWaiting.cfg.Valid ∧ sWaiting.closed = false ∧ sWaiting.txState = .waitAck ∧ 0x07 = sWaiting.txTxid) ∧
      (sA.cfg.Valid ∧ sA.txState ≠ .waitAck) ∧ (sClosed.cfg.Valid ∧ sClosed.closed = true) := by decide

/-- SendWritesAllFragments: three fragments, and the empty payload. -/
theorem witness_SendWritesAllFragments :
    sB.closed = false ∧
      (∃ a, exec (.padpSend 0x30 0x01 [1, 2, 3, 4, 5, 6, 7, 8, 9]) sB = .next a ∧ a.reply = some ⟨.ok, .none⟩) ∧
      (∃ a, exec (.padpSend 0x30 0x00 []) sB = .next a ∧ a.reply = some ⟨.ok, .none⟩) :=
  ⟨rfl, ⟨_, rfl, by decide +kernel⟩, ⟨_, rfl, by decide +kernel⟩⟩

/-- FirstFragmentOutcomes: accepted with one byte missing; each test that fails. -/
theorem witness_FirstFragmentOutcomes :
    (0x9F : Byte) &&& 0xE0 = 0x80 ∧ (sA.cfg.Valid ∧ sA.closed = false ∧ sA.rxState ≠ .assembling ∧
      ¬ (4 : Word16).toNat ≤ ([1, 2, 3] : Bytes).length) ∧
      ((4 : Word16).toNat ≤ ([1, 2, 3, 4] : Bytes).length) ∧ ({ cfgA with padpMaxPayload := 8 }.Valid ∧ 8 < (9 : Word16).toNat) ∧
      (sAssembling.cfg.Valid ∧ sAssembling.closed = false ∧ sAssembling.rxState = .assembling) := by decide

/-- OnlyFragmentOutcomes: both values of the acknowledgement bit, the empty message, and each test that fails. -/
theorem witness_OnlyFragmentOutcomes :
    ((0xDF : Byte) &&& 0xC0 = 0xC0 ∧ (0xE0 : Byte) &&& 0xC0 = 0xC0) ∧
      (sA.cfg.Valid ∧ sA.closed = false ∧ sA.rxState ≠ .assembling ∧ ([] : Bytes).length = (0 : Word16).toNat) ∧
      ([1, 2] : Bytes).length ≠ (3 : Word16).toNat ∧ sAssembling.rxState = .assembling := by decide

/-- MidFragmentOutcomes: accepted with one byte missing; each test that fails. -/
theorem witness_MidFragmentOutcomes :
    (0x1F : Byte) &&& 0xE0 = 0x00 ∧ (sAssembling.cfg.Valid ∧ sAssembling.closed = false ∧ sAssembling.rxState ≠ .idle ∧
      0x10 = sAssembling.rxTxid ∧ (4 : Word16).toNat = sAssembling.rxBuf.length ∧
      ¬ sAssembling.rxTotal ≤ sAssembling.rxBuf.length + ([5] : Bytes).length) ∧
      sAssembling.rxTotal ≤ sAssembling.rxBuf.length + ([5, 6] : Bytes).length ∧ 0x11 ≠ sAssembling.rxTxid ∧
      (3 : Word16).toNat ≠ sAssembling.rxBuf.length ∧ sA.rxState = .idle := by decide

/-- LastFragmentOutcomes: accepted exactly at the total; one byte too few and one too many. -/
theorem witness_LastFragmentOutcomes :
    ((0x5F : Byte) &&& 0xC0 = 0x40 ∧ (0x60 : Byte) &&& 0xC0 = 0x40) ∧
      (sAssembling.cfg.Valid ∧ sAssembling.closed = false ∧ sAssembling.rxState ≠ .idle ∧ 0x10 = sAssembling.rxTxid ∧
        (4 : Word16).toNat = sAssembling.rxBuf.length ∧
        sAssembling.rxBuf.length + ([5, 6] : Bytes).length = sAssembling.rxTotal) ∧
      sAssembling.rxBuf.length + ([5] : Bytes).length ≠ sAssembling.rxTotal ∧
      sAssembling.rxBuf.length + ([5, 6, 7] : Bytes).length ≠ sAssembling.rxTotal := by decide

/-- IllegalFragmentIsProtocolError: in either receiver state. -/
theorem witness_IllegalFragmentIsProtocolError :
    (0xBF : Byte) &&& 0xE0 = 0xA0 ∧ (sA.cfg.Valid ∧ sA.closed = false ∧ sA.rxState = .idle) ∧
      (sAssembling.cfg.Valid ∧ sAssembling.closed = false ∧ sAssembling.rxState = .assembling) := by decide

/-- ReceivedFragmentRunsItsRow: not admitted, too short by one byte, and the shortest fragment. -/
theorem witness_ReceivedFragmentRunsItsRow :
    (sA.cfg.Valid ∧ sA.win = [] ∧ sA.closed = false ∧ (0x03 : Byte) = sA.cfg.padpLocalSocket) ∧
      (0x01 ≠ sA.cfg.slpTypePadp ∧ 0x04 ≠ sA.cfg.padpRemoteSocket) ∧
      (0x02 = sA.cfg.slpTypePadp ∧ 0x03 = sA.cfg.padpRemoteSocket ∧ ([0x80, 0x00] : Bytes).length < 3) ∧
      decodeFragment 0x10 [0x20, 0x00, 0x00] = .ok (.padpAck 0x10 0 0x0000 []) := by decide

/-- SenderAndReceiverIndependent: a data fragment and an ack fragment that completes. -/
theorem witness_SenderAndReceiverIndependent :
    ((Instr.padpDataMid 0x10 0 4 [5]).space = .fragment 0x10 ∧ ∃ t, exec (.padpDataMid 0x10 0 4 [5]) sAssembling = .next t) ∧
      ((Instr.padpAck 0x07 0 0 []).space = .fragment 0x07 ∧ ∃ t, exec (.padpAck 0x07 0 0 []) sWaiting = .next t) :=
  ⟨⟨rfl, _, rfl⟩, ⟨rfl, _, rfl⟩⟩

/-- MessageRoundTrip: a peer with another fragment size and larger bodies, and the sender waiting. -/
theorem witness_MessageRoundTrip :
    cfgB.Valid ∧ sA.cfg.Valid ∧ sA.cfg.padpLocalSocket = cfgB.padpRemoteSocket ∧
      sA.cfg.padpRemoteSocket = cfgB.padpLocalSocket ∧ sA.cfg.slpTypePadp = cfgB.slpTypePadp ∧
      cfgB.slpMaxBody ≤ sA.cfg.slpMaxBody ∧ ([1, 2, 3, 4, 5, 6, 7, 8, 9] : Bytes).length ≤ cfgB.padpMaxPayload ∧
      ([1, 2, 3, 4, 5, 6, 7, 8, 9] : Bytes).length ≤ sA.cfg.padpMaxPayload ∧ sA.rxState = .idle ∧ sA.rxTxid = 0x00 ∧
      sA.rxTotal = 0 ∧ sA.rxBuf = [] ∧ sA.win = [] ∧ sA.closed = false ∧
      (sWaiting.cfg = cfgB ∧ sWaiting.win = [] ∧ sWaiting.closed = false ∧ sWaiting.txState = .waitAck ∧
        sWaiting.txTxid = 0x07) := by decide

/-- ResetOutcome, CancelAndCloseOutcomes, NopAndStatusOutcomes, CrcCommandsComplete: open, closed, and in the middle of a
send and of a receive. -/
theorem witness_ResetOutcome :
    (sClosed.cfg.Valid ∧ sClosed.closed = true) ∧ (sWaiting.cfg.Valid ∧ sWaiting.txState ≠ .idle) ∧
      (sAssembling.cfg.Valid ∧ sAssembling.rxState = .assembling) := by decide

/-- ReservedCodeIsRefused: codes beside an assigned one. -/
theorem witness_ReservedCodeIsRefused :
    sA.cfg.Valid ∧ ∀ c ∈ ([0x05, 0x43, 0xEF, 0xF2, 0xFE] : Bytes),
      c ∉ ([0x00, 0x01, 0x02, 0x03, 0x04, 0x10, 0x20, 0x30, 0x40, 0x41, 0x42, 0xF0, 0xF1, 0xFF] : Bytes) := by decide

/-- ClosedTable. -/
theorem witness_ClosedTable :
    sClosed.cfg.Valid ∧ sClosed.closed = true ∧ sClosed.txState = .idle ∧
      (Instr.padpIllegal 0x10 0 6 []).space = .fragment 0x10 := by decide

/-- A send of eight bytes under CFG-A (two fragments, the table of R191) waiting for its ack, with `tx_off` at `off`. -/
def sWaitingAt (off : Nat) : State :=
  { sA with txState := .waitAck, txAckreq := true, txBuf := [1, 2, 3, 4, 5, 6, 7, 8], txOff := off, txTimer := 2 }

/-- StepKeepsInvariant: a step from a state in the middle of a send, of a receive and of a frame, and a tick of a state
that waits. -/
theorem witness_StepKeepsInvariant :
    (∃ t, Inv { sAssembling with txState := .sending, txTxid := 0x07, win := [0xBE], trace := [0x40, 0xEF] } ∧
      step { sAssembling with txState := .sending, txTxid := 0x07, win := [0xBE], trace := [0x40, 0xEF] } = .next t) ∧
      (∃ t, Inv { sWaitingAt 4 with trace := [0x41] } ∧ step { sWaitingAt 4 with trace := [0x41] } = .next t) :=
  ⟨⟨_, by decide, rfl⟩, ⟨_, by decide, rfl⟩⟩

/-- R30: in `TX_WAIT_ACK` only the last fragment's offset is in range. -/
theorem test_SenderInRange_last_offset :
    (List.range 10).filter (fun off => decide (SenderInRange (sWaitingAt off))) = [4] := by decide

/-- ClosedChangesOnlyBy: `closed` set, and cleared. -/
theorem witness_ClosedChangesOnlyBy :
    (∃ t, exec .close sA = .next t ∧ sA.closed = false ∧ t.closed = true) ∧
      (∃ t, exec .reset sClosed = .next t ∧ sClosed.closed = true ∧ t.closed = false) :=
  ⟨⟨_, rfl, rfl, rfl⟩, ⟨_, rfl, rfl, rfl⟩⟩

/-- ConfigurationFixedOutputsAppended. -/
theorem witness_ConfigurationFixedOutputsAppended :
    (∃ t, exec .padpTxstep sSending = .next t) ∧ (∃ t, step { sA with trace := [0xFF] } = .next t) :=
  ⟨⟨_, rfl⟩, ⟨_, rfl⟩⟩

/-- OneTxDonePerAcceptedSend: a send accepted, and a send ended. -/
theorem witness_OneTxDonePerAcceptedSend :
    (∃ t, exec (.padpSend 0x07 0x01 [0xDE, 0xAD]) sB = .next t ∧ t.reply = some ⟨.ok, .none⟩) ∧
      (∃ t, exec .cancel sWaiting = .next t ∧ Instr.cancel ≠ .reset) :=
  ⟨⟨_, rfl, by decide +kernel⟩, ⟨_, rfl, by simp⟩⟩

/-- RejectionChangesNothing: each of the three statuses. -/
theorem witness_RejectionChangesNothing :
    (∃ t, exec (.padpSend 0x08 0x00 [0x01]) sSending = .next t ∧ t.reply = some ⟨.busy, .none⟩) ∧
      (∃ t, exec (.slpTx goodPacket) sClosed = .next t ∧ t.reply = some ⟨.closed, .none⟩) ∧
      (∃ t, exec (.reserved 0x05) sA = .next t ∧ t.reply = some ⟨.refused, .none⟩) :=
  ⟨⟨_, rfl, by decide +kernel⟩, ⟨_, rfl, by decide +kernel⟩, ⟨_, rfl, by decide +kernel⟩⟩

/-- ChecksumErrorIsSilent: outputs added, and a return value. -/
theorem witness_ChecksumErrorIsSilent :
    (∃ t, exec (.padpIllegal 0x10 0 6 []) sA = .next t ∧ t.out = sA.out ++ [.padpRxErr .protocol]) ∧
      (∃ t, exec .crcRd sA = .next t ∧ t.out = sA.out ++ [] ∧ t.reply = some ⟨.ok, .crc 0x0000⟩) :=
  ⟨⟨_, rfl, by decide +kernel⟩, ⟨_, rfl, by decide +kernel, by decide +kernel⟩⟩

/-- TransmitStreamIsWholeFrames: a step that writes a frame (V-TX-2). -/
theorem witness_TransmitStreamIsWholeFrames :
    ∃ t, step { sA with trace := [0x10, 0x00, 0x00, 0x00, 0x00, 0x00, 0x00] } = .next t ∧
      t.out = sA.out ++ [.txBytes [0xBE, 0xEF, 0xED, 0x00, 0x00, 0x00, 0x00, 0x00, 0x00, 0x9A, 0xAB, 0x36]] :=
  ⟨_, rfl, by decide +kernel⟩

/-- IllegalConfigurationIsRefused: each constraint broken at its boundary. -/
theorem witness_IllegalConfigurationIsRefused :
    { cfgA with padpFragSize := 0 }.padpFragSize = 0 ∧ { cfgA with slpMaxBody := 6 }.slpMaxBody < 3 + cfgA.padpFragSize ∧
      65535 < { cfgA with slpMaxBody := 65536 }.slpMaxBody ∧ 65535 < { cfgA with padpMaxPayload := 65536 }.padpMaxPayload ∧
      { cfgA with padpAckTimeout := 0 }.padpAckTimeout = 0 ∧ cfgA.padpLocalSocket ∉ { cfgA with slpSubs := [0x01] }.slpSubs := by
  decide

end Sys2Proof.Tests
end

namespace Sys2Proof

/-- A configuration is illegal exactly when it breaks one of the six constraints of R7. -/
theorem Config.not_valid_iff (c : Config) :
    ¬ c.Valid ↔
      c.padpFragSize = 0 ∨ c.slpMaxBody < 3 + c.padpFragSize ∨ 65535 < c.slpMaxBody ∨
        65535 < c.padpMaxPayload ∨ c.padpAckTimeout = 0 ∨ c.padpLocalSocket ∉ c.slpSubs := by
  simp only [Config.Valid, padpHdrLen, not_and_or, not_le, Nat.lt_one_iff]

/-- Settles O60: a broken constraint makes the configuration illegal, and no instruction runs under an illegal one. -/
theorem illegalConfigurationIsRefused : Obligations.IllegalConfigurationIsRefused :=
  fun i s hbroken => Machine.exec_of_invalid i (s.cfg.not_valid_iff.mpr hbroken)

end Sys2Proof

namespace Sys2Proof.Machine

/-! ### What an instruction leaves alone (10_state.md R22, R25, R45, 20_memory.md R70) -/

/-- What an instruction from `s` to `t` does to the configuration, the trace and the outputs, and to the two registers
that only a few instructions write. -/
structure ExecFrame (i : Instr) (s t : State) : Prop where
  cfg : t.cfg = s.cfg
  trace : t.trace = s.trace
  out : s.out <+: t.out
  crc : t.crc = s.crc ∨ i = .crcClr ∨ (∃ b, i = .crcUpd b) ∨ i = .reset
  closed : t.closed = s.closed ∨ (t.closed = true ∧ (i = .cancel ∨ i = .close)) ∨ (t.closed = false ∧ i = .reset)

theorem ReceiveFrame.execFrame {s t : State} (h : ReceiveFrame s t) (i : Instr) : ExecFrame i s t :=
  ⟨h.cfg, h.trace, h.out, .inl h.crc, .inl h.closed⟩

/-- A received effect does what it may do in an open LE, and nothing in a closed one. -/
theorem received_frame {s : State} {f : State → State} (h : Delivered s (f s)) : ReceiveFrame s (s.received f) := by
  unfold State.received
  split
  · exact .refl s
  · exact h.frame

theorem tickEffect_frame (s : State) : ExecFrame .tick s (tickEffect s) := by
  rw [tickEffect_eq]
  split_ifs
  · exact ⟨rfl, rfl, List.prefix_rfl, .inl rfl, .inl rfl⟩
  · exact ⟨rfl, rfl, List.prefix_rfl, .inl rfl, .inl rfl⟩
  · exact ⟨rfl, rfl, List.prefix_append _ _, .inl rfl, .inl rfl⟩
  · exact ⟨rfl, rfl, List.prefix_append _ _, .inl rfl, .inl rfl⟩

theorem txstepEffect_frame (s : State) : ExecFrame .padpTxstep s (txstepEffect s) := by
  rw [txstepEffect_eq]
  split_ifs
  · exact ⟨rfl, rfl, List.prefix_append _ _, .inl rfl, .inl rfl⟩
  · exact ⟨rfl, rfl, List.prefix_append _ _, .inl rfl, .inl rfl⟩
  · exact ⟨rfl, rfl, (List.prefix_append _ _).trans (List.prefix_append _ _), .inl rfl, .inl rfl⟩

theorem cancelEffect_frame {i : Instr} (hi : i = .cancel ∨ i = .close) (s : State) : ExecFrame i s (cancelEffect s) := by
  rcases Bool.eq_false_or_eq_true s.closed with hc | ho
  · rw [cancelEffect_of_closed hc]
    exact ⟨rfl, rfl, List.prefix_rfl, .inl rfl, .inl rfl⟩
  · rw [cancelEffect_of_open ho]
    exact ⟨rfl, rfl, (List.prefix_append _ _).trans (List.prefix_append _ _), .inl rfl, .inr (.inl ⟨rfl, hi⟩)⟩

/-- Every instruction's frame, one case a row of the opcode table. -/
theorem effectOf_frame (i : Instr) (s : State) : ExecFrame i s (effectOf i s) := by
  cases i with
  | nop | crcRd | crcChk | status | reserved => exact ⟨rfl, rfl, List.prefix_rfl, .inl rfl, .inl rfl⟩
  | crcClr => exact ⟨rfl, rfl, List.prefix_rfl, .inr (.inl rfl), .inl rfl⟩
  | crcUpd b => exact ⟨rfl, rfl, List.prefix_rfl, .inr (.inr (.inl ⟨b, rfl⟩)), .inl rfl⟩
  | slpTx p =>
    simp only [effectOf]
    split_ifs
    · exact ⟨rfl, rfl, List.prefix_rfl, .inl rfl, .inl rfl⟩
    · exact ⟨rfl, rfl, List.prefix_rfl, .inl rfl, .inl rfl⟩
    · exact ⟨rfl, rfl, List.prefix_append _ _, .inl rfl, .inl rfl⟩
  | padpSend txid opts payload =>
    simp only [effectOf]
    split_ifs <;> exact ⟨rfl, rfl, List.prefix_rfl, .inl rfl, .inl rfl⟩
  | tick => exact tickEffect_frame s
  | padpTxstep => exact txstepEffect_frame s
  | cancel => exact cancelEffect_frame (.inl rfl) s
  | close => exact cancelEffect_frame (.inr rfl) s
  | reset => exact ⟨rfl, rfl, List.prefix_rfl, .inr (.inr (.inr rfl)), .inr (.inr ⟨rfl, rfl⟩)⟩
  | rxByte b => exact (rxByteEffect_frame b s).execFrame _
  | slpFrame p => exact (feed_frame (slpEncode p) s).execFrame _
  | padpDataFirst txid _ size data => exact (received_frame (dataFirst_cases txid size.toNat data s)).execFrame _
  | padpDataOnly txid ack _ size data => exact (received_frame (dataOnly_cases txid ack size.toNat data s)).execFrame _
  | padpDataMid txid _ size data => exact (received_frame (dataMid_cases txid size.toNat data s)).execFrame _
  | padpDataLast txid ack _ size data => exact (received_frame (dataLast_cases txid ack size.toNat data s)).execFrame _
  | padpAck txid => exact (received_frame (ackInput_cases txid s)).execFrame _
  | padpIllegal => exact (received_frame Delivered.failed).execFrame _

/-- The frame of an instruction that answers a next state. -/
theorem exec_frame {i : Instr} {s t : State} (h : exec i s = .next t) : ExecFrame i s t := by
  obtain ⟨-, rfl, -⟩ := exec_eq_next h
  obtain ⟨hcfg, htrace, hout, hcrc, hclosed⟩ := effectOf_frame i { s with reply := none }
  exact ⟨hcfg, htrace, hout, hcrc, hclosed⟩

/-- A step leaves the configuration, takes from the front of the trace and appends to the outputs. -/
theorem step_frame {s t : State} (h : step s = .next t) : t.cfg = s.cfg ∧ t.trace <:+ s.trace ∧ s.out <+: t.out := by
  rcases step_eq_next h with ⟨i, rest, hd, he⟩ | ⟨-, -, he⟩ | ⟨-, -, -, rfl⟩
  · have hf := exec_frame he
    exact ⟨hf.cfg, hf.trace ▸ rest_suffix_of_decodeRecord hd, hf.out⟩
  · have hf := exec_frame he
    exact ⟨hf.cfg, hf.trace ▸ List.suffix_rfl, hf.out⟩
  · exact ⟨rfl, List.suffix_rfl, List.prefix_rfl⟩

/-! ### Fragments and the sender's offsets (43_padp_send.md R191) -/

/-- A fragment is the last exactly when the payload ends within it. -/
theorem frag_last_iff (fragSize : Nat) (payload : Bytes) (ackreq : Bool) (o : Nat) :
    (frag fragSize payload ackreq o).last = true ↔ payload.length ≤ o + fragSize := by
  simp only [frag, decide_eq_true_eq, List.length_take, List.length_drop]
  omega

/-- A fragment that is not the last is full. -/
theorem frag_count_of_not_last {fragSize : Nat} {payload : Bytes} {ackreq : Bool} {o : Nat}
    (h : (frag fragSize payload ackreq o).last = false) : (frag fragSize payload ackreq o).count = fragSize := by
  have hlen : ¬ payload.length ≤ o + fragSize := by rw [← frag_last_iff fragSize payload ackreq o, h]; decide
  simp only [frag, List.length_take, List.length_drop]
  omega

/-! ### Parts of the invariant -/

/-- A window at which the scan waits is empty or the beginning of a possible frame (42_slp_rx.md R173). -/
theorem windowIsPending_of_wait {s : State} (h : examine s.cfg.slpMaxBody s.win = .wait) : WindowIsPending s := by
  have hbound := examine_wait_bound h
  rw [examine_eq] at h
  split_ifs at h with hempty hsig hshort hsum hlong hwait
  · have hnil : s.win = [] := List.length_eq_zero_iff.mp hempty
    simp [WindowIsPending, hnil]
  · exact ⟨hbound, not_not.mp hsig, fun hten => absurd hshort (by omega)⟩
  · exact ⟨hbound, not_not.mp hsig, fun _ => ⟨not_not.mp hsum, by omega, hwait⟩⟩

theorem closedIsQuiet_of_open {s : State} (h : s.closed = false) : ClosedIsQuiet s :=
  fun hc => absurd (h.symm.trans hc) (by decide)

/-- An idle sender's ranges do not speak of its offset's place or of the timer's running. -/
theorem senderInRange_of_idle {s : State} (hidle : s.txState = .idle) (hbuf : s.txBuf.length ≤ s.cfg.padpMaxPayload)
    (hoff : s.txOff ≤ s.txBuf.length) (htimer : s.txTimer ≤ s.cfg.padpAckTimeout)
    (hretries : s.txRetries ≤ s.cfg.padpMaxRetries) : SenderInRange s :=
  ⟨hbuf, hoff, htimer, hretries, fun h => absurd hidle h, fun h => by rw [hidle] at h; cases h⟩

/-- The receive path keeps the sender's ranges: it can only end the send (R196). -/
theorem ReceiveFrame.senderInRange {s t : State} (f : ReceiveFrame s t) (h : SenderInRange s) : SenderInRange t := by
  obtain ⟨hbuf, hoff, htimer, hretries, hsend, hwait⟩ := h
  rcases f.txState with he | ⟨-, he⟩
  · simp only [SenderInRange, f.cfg, f.txBuf, f.txOff, f.txTimer, f.txRetries, f.txAckreq, he]
    exact ⟨hbuf, hoff, htimer, hretries, hsend, hwait⟩
  · exact senderInRange_of_idle he (by rwa [f.txBuf, f.cfg]) (by rwa [f.txBuf, f.txOff]) (by rwa [f.txTimer, f.cfg])
      (by rwa [f.txRetries, f.cfg])

/-- A cleared receiver is in range (R34 to R36). -/
theorem receiverInRange_of_cleared {s : State} (hstate : s.rxState = .idle) (htxid : s.rxTxid = 0x00)
    (htotal : s.rxTotal = 0) (hbuf : s.rxBuf = []) : ReceiverInRange s :=
  ⟨by omega, fun _ => ⟨htxid, htotal, hbuf⟩, fun h => by rw [hstate] at h; cases h⟩

/-- A delivered packet keeps the receiver's ranges: it opens or extends a message that stays incomplete, or clears the
receiver. -/
theorem Delivered.receiverInRange {s t : State} (hd : Delivered s t) (h : ReceiverInRange s) : ReceiverInRange t := by
  obtain ⟨htotal, hidle, hassembling⟩ := h
  cases hd with
  | ignored | outside | acked => exact ⟨htotal, hidle, hassembling⟩
  | failed => exact receiverInRange_of_cleared rfl rfl rfl rfl
  | opened txid size data _ hsize hdata => exact ⟨hsize, nofun, fun _ => hdata⟩
  | extended data ha hdata =>
    refine ⟨htotal, fun hi => absurd (ha.symm.trans hi) (by decide), fun _ => ?_⟩
    rwa [List.length_append]
  | completed => rw [complete_eq]; exact receiverInRange_of_cleared rfl rfl rfl rfl

/-! ### Every effect keeps the invariant -/

/-- What the receive path keeps of the invariant while the window is being scanned, in an open LE. -/
structure OpenInRange (s : State) : Prop where
  isOpen : s.closed = false
  sender : SenderInRange s
  receiver : ReceiverInRange s

theorem Delivered.openInRange {s t : State} (hd : Delivered s t) (h : OpenInRange s) : OpenInRange t :=
  ⟨hd.frame.closed.trans h.isOpen, hd.frame.senderInRange h.sender, hd.receiverInRange h.receiver⟩

theorem scan_openInRange {s : State} (h : OpenInRange s) : OpenInRange (scan s) :=
  scan_keeps (fun _ _ k => ⟨k.isOpen, k.sender, k.receiver⟩) (fun s p k => (deliver_cases p s).openInRange k) s h

theorem OpenInRange.inv {s : State} (h : OpenInRange s) (hw : WindowIsPending s) : Inv s :=
  ⟨closedIsQuiet_of_open h.isOpen, hw, h.sender, h.receiver⟩

theorem rxByteEffect_inv (b : Byte) {s : State} (h : Inv s) : Inv (rxByteEffect b s) := by
  rcases Bool.eq_false_or_eq_true s.closed with hc | ho
  · rwa [rxByteEffect_of_closed hc]
  · obtain ⟨-, -, hsender, hreceiver⟩ := h
    have hpushed : OpenInRange { s with win := s.win ++ [b] } := ⟨ho, hsender, hreceiver⟩
    rw [rxByteEffect_of_open ho]
    exact (scan_openInRange hpushed).inv (windowIsPending_of_wait (scan_settled _))

/-- A fragment row keeps the invariant, whichever of its outcomes it has. -/
theorem received_inv {s : State} {f : State → State} (hd : Delivered s (f s)) (h : Inv s) : Inv (s.received f) := by
  rcases Bool.eq_false_or_eq_true s.closed with hc | ho
  · rwa [received_of_closed hc]
  · obtain ⟨-, hwin, hsender, hreceiver⟩ := h
    rw [received_of_open ho]
    refine (hd.openInRange ⟨ho, hsender, hreceiver⟩).inv ?_
    simpa only [WindowIsPending, hd.win, hd.frame.cfg] using hwin

/-- A return value is no register. -/
theorem answer_inv {s : State} (h : Inv s) (st : Status) (d : ReplyData) : Inv (s.answer st d) := h

/-- An accepted send starts at its first fragment (R190). -/
theorem padpSend_inv (txid opts : Byte) (payload : Bytes) {s : State} (h : Inv s) :
    Inv (effectOf (.padpSend txid opts payload) s) := by
  obtain ⟨-, hwin, ⟨-, -, htimer, hretries, -, -⟩, hreceiver⟩ := id h
  simp only [effectOf]
  split_ifs with hc hopts hbusy hlen
  · exact answer_inv h _ _
  · exact answer_inv h _ _
  · exact answer_inv h _ _
  · exact answer_inv h _ _
  · refine ⟨closedIsQuiet_of_open (by simpa using hc), hwin, ?_, hreceiver⟩
    exact ⟨not_lt.mp hlen, Nat.zero_le _, htimer, hretries, fun _ => ⟨Nat.zero_mod _, .inl rfl⟩, nofun⟩

/-- A fragment written moves the offset to the next one, starts the timer at the last one, or ends the send
(R193 to R195). -/
theorem txstepEffect_inv {s : State} (hv : s.cfg.Valid) (he : s.txstepEnabled = true) (h : Inv s) :
    Inv (txstepEffect s) := by
  obtain ⟨-, hwin, ⟨hbuf, hoff, htimer, hretries, hsend, -⟩, hreceiver⟩ := h
  obtain ⟨-, -, -, -, htimeout, -⟩ := hv
  obtain ⟨ho, hs⟩ : s.closed = false ∧ s.txState = .sending := by simpa [State.txstepEnabled] using he
  obtain ⟨hmod, hplace⟩ := hsend (by rw [hs]; decide)
  have hlast := frag_last_iff s.cfg.padpFragSize s.txBuf s.txAckreq s.txOff
  rw [← currentFragment_eq] at hlast
  rw [txstepEffect_eq]
  split_ifs with hmore hack
  · have hnext : s.txOff + s.cfg.padpFragSize < s.txBuf.length := by
      rw [hmore] at hlast
      simpa using hlast
    rw [show s.currentFragment.count = s.cfg.padpFragSize from frag_count_of_not_last hmore]
    refine ⟨closedIsQuiet_of_open ho, hwin, ⟨hbuf, hnext.le, htimer, hretries, fun _ => ⟨?_, .inr hnext⟩, ?_⟩, hreceiver⟩
    · simpa using hmod
    · intro hwait
      exact absurd (hs.symm.trans hwait) (by decide)
  · have hend : s.txBuf.length ≤ s.txOff + s.cfg.padpFragSize := hlast.mp (by simpa using hmore)
    exact ⟨closedIsQuiet_of_open ho, hwin,
      ⟨hbuf, hoff, le_rfl, Nat.zero_le _, fun _ => ⟨hmod, hplace⟩, fun _ => ⟨htimeout, hend, hack⟩⟩, hreceiver⟩
  · exact ⟨closedIsQuiet_of_open ho, hwin, senderInRange_of_idle rfl hbuf hoff htimer hretries, hreceiver⟩

/-- A tick lets the timer run, restarts it with one retry more, or ends the send (R197 to R199). -/
theorem tickEffect_inv {s : State} (hv : s.cfg.Valid) (h : Inv s) : Inv (tickEffect s) := by
  obtain ⟨-, hwin, ⟨hbuf, hoff, htimer, hretries, hsend, hwait⟩, hreceiver⟩ := id h
  obtain ⟨-, -, -, -, htimeout, -⟩ := hv
  rw [tickEffect_eq]
  split_ifs with hskip hrun hretry
  · exact h
  all_goals
    obtain ⟨ho, hw⟩ : s.closed = false ∧ s.txState = .waitAck := by simpa using hskip
    obtain ⟨-, hend, hack⟩ := hwait hw
  · exact ⟨closedIsQuiet_of_open ho, hwin,
      ⟨hbuf, hoff, (Nat.sub_le _ _).trans htimer, hretries, hsend, fun _ => ⟨hrun, hend, hack⟩⟩, hreceiver⟩
  · exact ⟨closedIsQuiet_of_open ho, hwin,
      ⟨hbuf, hoff, le_rfl, hretry, hsend, fun _ => ⟨htimeout, hend, hack⟩⟩, hreceiver⟩
  · exact ⟨closedIsQuiet_of_open ho, hwin,
      senderInRange_of_idle rfl hbuf hoff ((Nat.sub_le _ _).trans htimer) hretries, hreceiver⟩

/-- `CANCEL` leaves both machines idle and the window empty (R251, R257). -/
theorem cancelEffect_inv {s : State} (h : Inv s) : Inv (cancelEffect s) := by
  rcases Bool.eq_false_or_eq_true s.closed with hc | ho
  · rw [cancelEffect_of_closed hc]
    exact answer_inv h _ _
  · obtain ⟨-, -, ⟨hbuf, hoff, htimer, hretries, -, -⟩, -, hidle, -⟩ := h
    rw [cancelEffect_of_open ho]
    refine ⟨fun _ => ⟨rfl, rfl, rfl⟩, windowIsPending_of_wait rfl, senderInRange_of_idle rfl hbuf hoff htimer hretries, ?_⟩
    cases hr : s.rxState with
    | idle =>
      obtain ⟨htxid, htotal, hrbuf⟩ := hidle hr
      exact receiverInRange_of_cleared rfl htxid htotal hrbuf
    | assembling => exact receiverInRange_of_cleared rfl rfl rfl rfl

/-- The reset registers meet the invariant under any configuration (R48). -/
theorem resetEffect_inv (s : State) : Inv (resetEffect s) :=
  ⟨closedIsQuiet_of_open rfl, windowIsPending_of_wait rfl,
    senderInRange_of_idle rfl (Nat.zero_le _) le_rfl (Nat.zero_le _) (Nat.zero_le _),
    receiverInRange_of_cleared rfl rfl rfl rfl⟩

/-- Every instruction's effect keeps the invariant, one case a row of the opcode table. -/
theorem effectOf_inv {i : Instr} {s : State} (hv : s.cfg.Valid) (he : i = .padpTxstep → s.txstepEnabled = true)
    (h : Inv s) : Inv (effectOf i s) := by
  cases i with
  | nop | crcClr | crcUpd | crcRd | crcChk | status | reserved => exact h
  | slpTx p =>
    simp only [effectOf]
    split_ifs <;> exact h
  | padpSend txid opts payload => exact padpSend_inv txid opts payload h
  | tick => exact tickEffect_inv hv h
  | padpTxstep => exact txstepEffect_inv hv (he rfl) h
  | cancel | close => exact cancelEffect_inv h
  | reset => exact resetEffect_inv s
  | rxByte b => exact rxByteEffect_inv b h
  | slpFrame p => exact feed_keeps (fun _ b k => rxByteEffect_inv b k) (slpEncode p) s h
  | padpDataFirst txid _ size data => exact received_inv (dataFirst_cases txid size.toNat data s) h
  | padpDataOnly txid ack _ size data => exact received_inv (dataOnly_cases txid ack size.toNat data s) h
  | padpDataMid txid _ size data => exact received_inv (dataMid_cases txid size.toNat data s) h
  | padpDataLast txid ack _ size data => exact received_inv (dataLast_cases txid ack size.toNat data s) h
  | padpAck txid => exact received_inv (ackInput_cases txid s) h
  | padpIllegal => exact received_inv Delivered.failed h

theorem exec_inv {i : Instr} {s t : State} (h : exec i s = .next t) (hs : Inv s) : Inv t := by
  obtain ⟨hv, rfl, he⟩ := exec_eq_next h
  exact effectOf_inv (s := { s with reply := none }) hv he hs

/-! ### The status byte (10_state.md R37, 45_system.md R255) -/

/-- The byte's layout (R255): bits 0 to 4 are the five flags, with `TX_BUSY` spread over `tx_state`'s two bits. -/
theorem statusByte_bits (s : State) :
    s.statusByte.getLsbD 0 = s.flagClosed ∧
      (s.statusByte.getLsbD 1 || s.statusByte.getLsbD 2) = s.flagTxBusy ∧ s.statusByte.getLsbD 2 = s.flagTxWaiting ∧
      s.statusByte.getLsbD 3 = s.flagRxActive ∧ s.statusByte.getLsbD 4 = s.flagSyncPending := by
  unfold State.statusByte State.flagTxBusy State.flagTxWaiting
  generalize s.flagSyncPending = sync
  generalize s.flagRxActive = rx
  generalize s.flagClosed = closed
  cases s.txState <;> revert sync rx closed <;> decide

@[simp] theorem flagClosed_iff (s : State) : s.flagClosed = true ↔ s.closed = true := Iff.rfl

@[simp] theorem flagTxBusy_iff (s : State) : s.flagTxBusy = true ↔ s.txState ≠ .idle := bne_iff_ne

@[simp] theorem flagTxWaiting_iff (s : State) : s.flagTxWaiting = true ↔ s.txState = .waitAck := beq_iff_eq

@[simp] theorem flagRxActive_iff (s : State) : s.flagRxActive = true ↔ s.rxState = .assembling := beq_iff_eq

@[simp] theorem flagSyncPending_iff (s : State) : s.flagSyncPending = true ↔ 0 < s.win.length := decide_eq_true_iff

end Sys2Proof.Machine

namespace Sys2Proof

open Machine

/-- Settles O52: a step is an instruction on the state with the rest of the trace, which the invariant does not read, or
nothing. -/
theorem stepKeepsInvariant : Obligations.StepKeepsInvariant := by
  intro s t hs h
  rcases step_eq_next h with ⟨i, rest, -, he⟩ | ⟨-, -, he⟩ | ⟨-, -, -, rfl⟩
  · exact exec_inv (s := { s with trace := rest }) he hs
  · exact exec_inv he hs
  · exact hs

/-- Settles O16: the frame names the three instructions that may change `crc`. -/
theorem crcWrittenOnlyByItsCommands : Obligations.CrcWrittenOnlyByItsCommands := by
  intro i s t h hclr hupd hreset
  rcases (exec_frame h).crc with heq | rfl | ⟨b, rfl⟩ | rfl
  · exact heq
  · exact absurd rfl hclr
  · exact absurd rfl (hupd b)
  · exact absurd rfl hreset

/-- Settles O54: the frame names the instructions that may change `closed`, and to which value. -/
theorem closedChangesOnlyBy : Obligations.ClosedChangesOnlyBy := by
  intro i s t h
  rcases (exec_frame h).closed with heq | ⟨ht, hi⟩ | ⟨ht, hi⟩
  · rw [heq]
    exact ⟨fun hs ht => absurd (hs.symm.trans ht) (by decide), fun hs ht => absurd (hs.symm.trans ht) (by decide)⟩
  · exact ⟨fun _ _ => hi, fun _ hf => absurd (ht.symm.trans hf) (by decide)⟩
  · exact ⟨fun _ hf => absurd (ht.symm.trans hf) (by decide), fun _ _ => hi⟩

/-- Settles O55: the frames of an instruction and of a step. -/
theorem configurationFixedOutputsAppended : Obligations.ConfigurationFixedOutputsAppended := by
  refine ⟨fun i s t h => ?_, fun s t h => ?_⟩
  · obtain ⟨hcfg, htrace, ⟨added, hout⟩, -, -⟩ := exec_frame h
    exact ⟨hcfg, htrace, added, hout.symm⟩
  · obtain ⟨hcfg, ⟨taken, htrace⟩, added, hout⟩ := step_frame h
    exact ⟨hcfg, ⟨taken, htrace.symm⟩, added, hout.symm⟩

/-- Settles O49: the layout of the status byte, each flag's test, and the reset byte by evaluation. -/
theorem statusFlagsAreViews : Obligations.StatusFlagsAreViews := by
  refine ⟨fun s => ?_, rfl⟩
  obtain ⟨hclosed, hbusy, hwaiting, hactive, hpending⟩ := statusByte_bits s
  exact ⟨hclosed.symm, hbusy.symm, hwaiting.symm, hactive.symm, hpending.symm, flagClosed_iff s, flagRxActive_iff s,
    flagTxBusy_iff s, flagTxWaiting_iff s, flagSyncPending_iff s⟩

/-- Settles O53: the reset state is the outcome of `RESET` in it, and `RESET` meets the invariant from any state. -/
theorem resetMeetsInvariant : Obligations.ResetMeetsInvariant := resetEffect_inv State.reset

end Sys2Proof

namespace Sys2Proof.Machine

/-! ### The serial form of the CRC (00_scope.md R63, 40_crc16.md R130) -/

/-- One bit fed at the top of the shift register: the polynomial is added when the bit that falls out differs from it. -/
def crc16Feed (c : Word16) (bit : Bool) : Word16 :=
  if (c.getLsbD 15 ^^ bit) = true then (c <<< 1) ^^^ 0x1021#16 else c <<< 1

/-- A fed bit adds the polynomial once more to one turn of the register. -/
theorem crc16Feed_eq (c : Word16) (bit : Bool) :
    crc16Feed c bit = crc16Shift c ^^^ (if bit then 0x1021#16 else 0#16) := by
  rw [crc16Shift_eq, crc16Feed]
  cases c.getLsbD 15 <;> cases bit <;> simp

/-- One turn of a byte waiting in the upper half of the register: its first bit falls out and the others move up. -/
theorem crc16Shift_high : ∀ r : Byte, crc16Shift (r.setWidth 16 <<< 8) =
    (if r.getLsbD 7 then 0x1021#16 else 0#16) ^^^ ((r <<< 1).setWidth 16 <<< 8) := by
  decide +kernel

/-- A byte added to the register before a turn may as well wait beside it and feed only its first bit. -/
theorem crc16Shift_waiting (c : Word16) (r : Byte) :
    crc16Shift (c ^^^ (r.setWidth 16 <<< 8)) = crc16Feed c (r.getLsbD 7) ^^^ ((r <<< 1).setWidth 16 <<< 8) := by
  rw [crc16Shift_xor, crc16Shift_high, crc16Feed_eq, BitVec.xor_assoc]

/-- After `n` turns the first `n` bits have been fed and the others still wait. -/
theorem crc16Shift_iterate_waiting (n : Nat) (c : Word16) (r : Byte) :
    crc16Shift^[n] (c ^^^ (r.setWidth 16 <<< 8)) =
      (List.range n).foldl (fun c k => crc16Feed c ((r <<< k).getLsbD 7)) c ^^^ ((r <<< n).setWidth 16 <<< 8) := by
  induction n with
  | zero => simp
  | succ n ih =>
    rw [Function.iterate_succ_apply', ih, crc16Shift_waiting, List.range_succ, List.foldl_append, ← BitVec.shiftLeft_add]
    rfl

/-- All eight bits of a byte, fed one after another, leave nothing waiting. -/
theorem crc16Update_eq_feed (c : Word16) (b : Byte) :
    crc16Update c b = (List.range 8).foldl (fun c k => crc16Feed c ((b <<< k).getLsbD 7)) c := by
  have hnone : b <<< 8 = 0#8 := BitVec.shiftLeft_eq_zero le_rfl
  calc crc16Update c b = crc16Shift^[8] (c ^^^ (b.setWidth 16 <<< 8)) := rfl
    _ = _ := by rw [crc16Shift_iterate_waiting, hnone]; simp

/-! ### What is written to the transmit stream (20_memory.md R67, 41_slp_tx.md R151) -/

/-- An output event that, if it writes to the transmit stream, writes one whole frame with a body within the bound. -/
def WritesWholeFrame (maxBody : Nat) : OutEvent → Prop
  | .txBytes f => ∃ p : Packet, p.body.length ≤ maxBody ∧ f = slpEncode p
  | _ => True

/-- From `s` to `t` the configuration stays, and the outputs added write whole frames only. -/
structure AddsWholeFrames (s t : State) : Prop where
  cfg : t.cfg = s.cfg
  out : ∃ added, t.out = s.out ++ added ∧ ∀ e ∈ added, WritesWholeFrame s.cfg.slpMaxBody e

theorem AddsWholeFrames.of_out_eq {s t : State} (hcfg : t.cfg = s.cfg) (hout : t.out = s.out) : AddsWholeFrames s t :=
  ⟨hcfg, [], by simpa using hout, List.forall_mem_nil _⟩

theorem AddsWholeFrames.of_out_concat {s t : State} {e : OutEvent} (hcfg : t.cfg = s.cfg) (hout : t.out = s.out ++ [e])
    (he : WritesWholeFrame s.cfg.slpMaxBody e) : AddsWholeFrames s t :=
  ⟨hcfg, [e], hout, by simpa using he⟩

theorem AddsWholeFrames.trans {s t u : State} (h : AddsWholeFrames s t) (k : AddsWholeFrames t u) :
    AddsWholeFrames s u := by
  obtain ⟨hcfg, added, hout, hadded⟩ := h
  obtain ⟨kcfg, more, kout, kmore⟩ := k
  refine ⟨kcfg.trans hcfg, added ++ more, by rw [kout, hout, List.append_assoc], ?_⟩
  exact List.forall_mem_append.mpr ⟨hadded, hcfg ▸ kmore⟩

/-- The body of a fragment is its header and at most `PADP_FRAG_SIZE` bytes (R191). -/
theorem frag_body_length_le (fragSize : Nat) (payload : Bytes) (ackreq : Bool) (o : Nat) :
    (frag fragSize payload ackreq o).body.length ≤ 3 + fragSize := by
  simp only [frag, mkFragment_length, List.length_take]
  omega

/-- R7 leaves room in a body for any fragment of the message being sent. -/
theorem currentFragment_fits {s : State} (hv : s.cfg.Valid) : s.currentFragment.body.length ≤ s.cfg.slpMaxBody := by
  obtain ⟨-, hroom, -⟩ := hv
  exact (frag_body_length_le _ _ _ _).trans hroom

/-- R7 leaves room in a body for an acknowledgement. -/
theorem ackBody_fits {c : Config} (hv : c.Valid) : ackBody.length ≤ c.slpMaxBody := by
  obtain ⟨-, hroom, -⟩ := hv
  exact (Nat.le_add_right 3 _).trans hroom

theorem writeFragment_addsWholeFrames {s : State} (hv : s.cfg.Valid) : AddsWholeFrames s s.writeFragment :=
  .of_out_concat rfl rfl ⟨_, currentFragment_fits hv, rfl⟩

theorem txstepEffect_addsWholeFrames {s : State} (hv : s.cfg.Valid) : AddsWholeFrames s (txstepEffect s) := by
  have hwritten := writeFragment_addsWholeFrames hv
  rw [txstepEffect_eq]
  split_ifs
  · exact hwritten.trans (.of_out_eq rfl rfl)
  · exact hwritten.trans (.of_out_eq rfl rfl)
  · exact hwritten.trans (.of_out_concat rfl rfl trivial)

theorem tickEffect_addsWholeFrames {s : State} (hv : s.cfg.Valid) : AddsWholeFrames s (tickEffect s) := by
  rw [tickEffect_eq]
  split_ifs
  · exact .of_out_eq rfl rfl
  · exact .of_out_eq rfl rfl
  · exact (writeFragment_addsWholeFrames hv).trans (.of_out_eq rfl rfl)
  · exact .of_out_concat rfl rfl trivial

theorem cancelEffect_addsWholeFrames (s : State) : AddsWholeFrames s (cancelEffect s) := by
  rcases Bool.eq_false_or_eq_true s.closed with hc | ho
  · rw [cancelEffect_of_closed hc]
    exact .of_out_eq rfl rfl
  · rw [cancelEffect_of_open ho]
    refine ⟨rfl, _, List.append_assoc _ _ _, List.forall_mem_append.mpr ⟨?_, ?_⟩⟩ <;> split_ifs <;>
      simp [WritesWholeFrame]

/-- Of all that a delivered packet may do, only the acknowledgement of a complete message writes a frame (R227). -/
theorem Delivered.addsWholeFrames {s t : State} (hv : s.cfg.Valid) (h : Delivered s t) : AddsWholeFrames s t := by
  cases h with
  | ignored | opened | extended => exact .of_out_eq rfl rfl
  | outside | acked | failed => exact .of_out_concat rfl rfl trivial
  | completed txid ack payload =>
    rw [complete_eq]
    refine ⟨rfl, _, rfl, List.forall_mem_cons.mpr ⟨trivial, ?_⟩⟩
    cases ack with
    | false => exact List.forall_mem_nil _
    | true => exact List.forall_mem_singleton.mpr ⟨_, ackBody_fits hv, rfl⟩

theorem received_addsWholeFrames {s : State} {f : State → State} (hv : s.cfg.Valid) (h : Delivered s (f s)) :
    AddsWholeFrames s (s.received f) := by
  rcases Bool.eq_false_or_eq_true s.closed with hc | ho
  · rw [received_of_closed hc]
    exact .of_out_eq rfl rfl
  · rw [received_of_open ho]
    exact h.addsWholeFrames hv

theorem scan_addsWholeFrames {s : State} (hv : s.cfg.Valid) : AddsWholeFrames s (scan s) :=
  scan_keeps (P := AddsWholeFrames s) (fun _ _ h => h.trans (.of_out_eq rfl rfl))
    (fun t p h => h.trans ((deliver_cases p t).addsWholeFrames (h.cfg ▸ hv))) s (.of_out_eq rfl rfl)

theorem rxByteEffect_addsWholeFrames (b : Byte) {s : State} (hv : s.cfg.Valid) :
    AddsWholeFrames s (rxByteEffect b s) := by
  rcases Bool.eq_false_or_eq_true s.closed with hc | ho
  · rw [rxByteEffect_of_closed hc]
    exact .of_out_eq rfl rfl
  · have hpushed : AddsWholeFrames s { s with win := s.win ++ [b] } := .of_out_eq rfl rfl
    rw [rxByteEffect_of_open ho]
    exact hpushed.trans (scan_addsWholeFrames hv)

theorem feed_addsWholeFrames (bs : Bytes) {s : State} (hv : s.cfg.Valid) : AddsWholeFrames s (feed bs s) :=
  feed_keeps (P := AddsWholeFrames s) (fun _ b h => h.trans (rxByteEffect_addsWholeFrames b (h.cfg ▸ hv))) bs s
    (.of_out_eq rfl rfl)

/-- Every instruction writes whole frames only, one case a row of the opcode table. -/
theorem effectOf_addsWholeFrames (i : Instr) {s : State} (hv : s.cfg.Valid) : AddsWholeFrames s (effectOf i s) := by
  cases i with
  | nop | crcClr | crcUpd | crcRd | crcChk | status | reserved | reset => exact .of_out_eq rfl rfl
  | slpTx p =>
    simp only [effectOf]
    split_ifs with hclosed hlong
    · exact .of_out_eq rfl rfl
    · exact .of_out_eq rfl rfl
    · exact .of_out_concat rfl rfl ⟨p, not_lt.mp hlong, rfl⟩
  | padpSend txid opts payload =>
    simp only [effectOf]
    split_ifs <;> exact .of_out_eq rfl rfl
  | tick => exact tickEffect_addsWholeFrames hv
  | padpTxstep => exact txstepEffect_addsWholeFrames hv
  | cancel | close => exact cancelEffect_addsWholeFrames s
  | rxByte b => exact rxByteEffect_addsWholeFrames b hv
  | slpFrame p => exact feed_addsWholeFrames (slpEncode p) hv
  | padpDataFirst txid _ size data => exact received_addsWholeFrames hv (dataFirst_cases txid size.toNat data s)
  | padpDataOnly txid ack _ size data => exact received_addsWholeFrames hv (dataOnly_cases txid ack size.toNat data s)
  | padpDataMid txid _ size data => exact received_addsWholeFrames hv (dataMid_cases txid size.toNat data s)
  | padpDataLast txid ack _ size data => exact received_addsWholeFrames hv (dataLast_cases txid ack size.toNat data s)
  | padpAck txid => exact received_addsWholeFrames hv (ackInput_cases txid s)
  | padpIllegal => exact received_addsWholeFrames hv Delivered.failed

theorem exec_addsWholeFrames {i : Instr} {s t : State} (h : exec i s = .next t) : AddsWholeFrames s t := by
  obtain ⟨hv, rfl, -⟩ := exec_eq_next h
  obtain ⟨hcfg, hout⟩ := effectOf_addsWholeFrames i (s := { s with reply := none }) hv
  exact ⟨hcfg, hout⟩

theorem step_addsWholeFrames {s t : State} (h : step s = .next t) : AddsWholeFrames s t := by
  rcases step_eq_next h with ⟨i, rest, -, he⟩ | ⟨-, -, he⟩ | ⟨-, -, -, rfl⟩
  · obtain ⟨hcfg, hout⟩ := exec_addsWholeFrames he
    exact ⟨hcfg, hout⟩
  · exact exec_addsWholeFrames he
  · exact .of_out_eq rfl rfl

end Sys2Proof.Machine

namespace Sys2Proof

open Machine

/-- Settles O20: the tests of one turn, passed, leave no window but a frame and what follows it, and a frame within the
bound passes them all. -/
theorem deframerAcceptsExactlyFrames : Obligations.DeframerAcceptsExactlyFrames :=
  fun _ win p hmax => examine_eq_accept_iff hmax win p

/-- Settles O10: the byte added at the top falls out of the register bit by bit, bit 7 first. -/
theorem crcByteIsBitSerial : Obligations.CrcByteIsBitSerial := by
  intro c b
  have hbits : [7, 6, 5, 4, 3, 2, 1, 0].map (fun j => b.getLsbD j) =
      (List.range 8).map (fun k => (b <<< k).getLsbD 7) := by
    simp [List.range_succ]
  calc crc16Update c b = ((List.range 8).map (fun k => (b <<< k).getLsbD 7)).foldl crc16Feed c := by
        rw [crc16Update_eq_feed, List.foldl_map]
    _ = ([7, 6, 5, 4, 3, 2, 1, 0].map (fun j => b.getLsbD j)).foldl crc16Feed c := by rw [hbits]
    _ = _ := rfl

/-- Settles O59: what a step adds to the outputs writes whole frames only. -/
theorem transmitStreamIsWholeFrames : Obligations.TransmitStreamIsWholeFrames := by
  intro s t added hstep hadded f hf
  obtain ⟨-, added', hout, hwhole⟩ := step_addsWholeFrames hstep
  obtain rfl : added = added' := List.append_cancel_left (hadded.symm.trans hout)
  exact hwhole _ hf

end Sys2Proof

namespace Sys2Proof.Machine

/-! ### Fields of a byte string (00_scope.md R8, 30_encoding.md R94) -/

/-- A 16-bit value is written as the two bytes it is read from (R8, R64). -/
theorem be16_eq_pair (v : Word16) : ∃ hi lo : Byte, be16 v = [hi, lo] ∧ word16 hi lo = v :=
  ⟨_, _, rfl, word16_extract v⟩

/-- Reading a 16-bit field in front of what follows it. -/
theorem get16_append_left {s : Bytes} {i : Nat} (h : i + 1 < s.length) (t : Bytes) :
    get16 (s ++ t) i = get16 s i := by
  rw [get16, get16, List.getD_append _ _ _ _ h, List.getD_append _ _ _ _ (by omega)]

/-- The header sum is the sum of the bytes' values modulo 256 (R94). -/
theorem byteSum_eq (s : Bytes) : byteSum s = BitVec.ofNat 8 (s.map BitVec.toNat).sum := by
  have hfold (a : Byte) : s.foldl (· + ·) a = a + BitVec.ofNat 8 (s.map BitVec.toNat).sum := by
    induction s generalizing a with
    | nil => simp
    | cons b s ih => simp [ih, BitVec.ofNat_add, BitVec.add_assoc]
  exact (hfold 0).trans (BitVec.zero_add _)

/-! ### The table of operation codes (30_encoding.md R107, R108) -/

/-- A code is reserved exactly when the table has no row for it (R108). -/
theorem opOfCode_eq_none_iff (code : Byte) : opOfCode code = none ↔ code ∉ opTable.map OpRow.code := by
  simp [opOfCode, List.find?_eq_none]

/-- The code of an operation (R107). -/
def codeOfOp : Op → Byte
  | .nop => 0x00
  | .crcClr => 0x01
  | .crcUpd => 0x02
  | .crcRd => 0x03
  | .crcChk => 0x04
  | .slpTx => 0x10
  | .padpSend => 0x20
  | .status => 0x30
  | .rxByte => 0x40
  | .tick => 0x41
  | .padpTxstep => 0x42
  | .cancel => 0xF0
  | .close => 0xF1
  | .reset => 0xFF

/-- The table has one code for each operation (R107). -/
theorem code_of_mem_opTable : ∀ row ∈ opTable, row.code = codeOfOp row.op := by decide

/-- A reserved code's record answers `REFUSED` and changes nothing else (R108). -/
theorem exec_reserved (code : Byte) {s : State} (hv : s.cfg.Valid) :
    exec (.reserved code) s = .next { s with reply := some ⟨.refused, .none⟩ } := by
  rw [exec_eq_perform (by simp), perform_of_valid hv]
  rfl

/-! ### The records of bytes on the receive stream (30_encoding.md R111, 42_slp_rx.md R165) -/

/-- A received byte leaves the records still to be taken alone. -/
theorem rxByteEffect_offering (b : Byte) (s : State) (tr : Bytes) :
    rxByteEffect b (s.offering tr) = (rxByteEffect b s).offering tr := by
  have hcrc := (rxByteEffect_frame b s).crc
  calc rxByteEffect b (s.offering tr) = (rxByteEffect b s).beside s.crc tr := rxByteEffect_beside b s s.crc tr
    _ = (rxByteEffect b s).offering tr := by rw [← hcrc]; rfl

/-- The first record of bytes on the receive stream is taken and its byte arrives (R111, R165). -/
theorem step_rxRecords_cons {s : State} (hv : s.cfg.Valid) (b : Byte) (bs rest : Bytes) :
    step (s.offering (rxRecords (b :: bs) ++ rest)) =
      .next ((rxByteEffect b { s with reply := none }).offering (rxRecords bs ++ rest)) := by
  rw [← rxByteEffect_offering]
  exact step_of_rxByte hv rfl

/-- Dropping a return value that is not there changes nothing. -/
theorem with_reply_none_eq {s : State} (h : s.reply = none) : { s with reply := none } = s := by
  rw [← h]

/-- The records of one byte or more take one step each and feed those bytes; the first of them drops the return value
that stood there (R111, R165). -/
theorem run_rxRecords (b : Byte) (bs rest : Bytes) {s : State} (hv : s.cfg.Valid) :
    core.run (b :: bs).length (s.offering (rxRecords (b :: bs) ++ rest)) =
      .next (feed (b :: bs) (State.offering { s with reply := none } rest)) := by
  rw [feed_cons, rxByteEffect_offering]
  refine (run_succ_of_next (step_rxRecords_cons hv b bs rest)).trans ?_
  induction bs generalizing b s with
  | nil => rfl
  | cons b' bs ih =>
    have hframe := rxByteEffect_frame b { s with reply := none }
    have hv' : (rxByteEffect b { s with reply := none }).cfg.Valid := hframe.cfg.symm ▸ hv
    have hstep := step_rxRecords_cons hv' b' bs rest
    have hrest := ih b' hv'
    rw [with_reply_none_eq hframe.reply] at hstep hrest
    rw [feed_cons, rxByteEffect_offering]
    exact (run_succ_of_next hstep).trans hrest

end Sys2Proof.Machine

namespace Sys2Proof

open Machine

/-! ### Reading a record back (30_encoding.md R106 to R108) -/

/-- A reserved code ends the trace (R108). -/
theorem decodeRecord_of_reserved {code : Byte} (h : opOfCode code = none) (rest : Bytes) :
    decodeRecord (code :: rest) = .ok (.reserved code, []) := by
  simp only [decodeRecord, h]

/-- Behind the encoding of a record the decoder goes on with what follows, one case a row of the opcode table. -/
theorem decodeRecord_encode_append {i : Instr} (hwf : i.wf = true) (hspace : i.space = .record)
    (hreserved : ∀ c, i ≠ .reserved c) (rest : Bytes) : decodeRecord (encode i ++ rest) = .ok (i, rest) := by
  cases i with
  | nop | crcClr | crcRd | status | tick | padpTxstep | cancel | close | reset | crcUpd | rxByte => rfl
  | crcChk v =>
    exact congrArg (fun read => Except.ok (Instr.crcChk read, rest)) (word16_extract v)
  | slpTx p =>
    exact decodeSized_encodeSized 0x10 (fun body => .slpTx ⟨p.dst, p.src, p.type, p.txid, body⟩) p.body rest
      ((bodyFits_iff _).mp hwf)
  | padpSend txid opts payload =>
    exact decodeSized_encodeSized 0x20 (.padpSend txid opts) payload rest ((bodyFits_iff _).mp hwf)
  | reserved code => exact absurd rfl (hreserved code)
  | slpFrame | padpDataFirst | padpDataOnly | padpDataMid | padpDataLast | padpAck | padpIllegal =>
    exact nomatch hspace

/-- The operands of an operation are read from the bytes the encoder puts behind its code, one case an operation. -/
theorem decodeOperands_eq_ok {code : Byte} {op : Op} {bytes rest : Bytes} {i : Instr}
    (h : decodeOperands code op bytes = .ok (i, rest)) :
    i.wf = true ∧ (∀ c, i ≠ .reserved c) ∧ encode i ++ rest = codeOfOp op :: bytes := by
  cases op with
  | nop | crcClr | crcRd | status | tick | padpTxstep | cancel | close | reset =>
    cases h
    exact ⟨rfl, nofun, rfl⟩
  | crcUpd | rxByte =>
    obtain ⟨b, rfl, rfl⟩ := decodeH1_eq_ok h
    exact ⟨rfl, nofun, rfl⟩
  | crcChk =>
    obtain ⟨v, rfl, rfl⟩ := decodeH2_eq_ok h
    exact ⟨rfl, nofun, rfl⟩
  | slpTx =>
    obtain ⟨p, hp, rfl, rfl⟩ := decodeHS_eq_ok h
    exact ⟨(bodyFits_iff _).mpr hp, nofun, rfl⟩
  | padpSend =>
    obtain ⟨txid, opts, payload, hpayload, rfl, rfl⟩ := decodeHP_eq_ok h
    exact ⟨(bodyFits_iff _).mpr hpayload, nofun, rfl⟩

/-- All that the record decoder reads: a reserved code, or the encoding of a well-formed record and what follows it. -/
theorem decodeRecord_eq_ok {bytes rest : Bytes} {i : Instr} (h : decodeRecord bytes = .ok (i, rest)) :
    (∃ c tail, opOfCode c = none ∧ i = .reserved c ∧ rest = [] ∧ bytes = c :: tail) ∨
      (i.wf = true ∧ (∀ c, i ≠ .reserved c) ∧ encode i ++ rest = bytes) := by
  match bytes, h with
  | code :: tail, h =>
    cases ho : opOfCode code with
    | none =>
      rw [decodeRecord_of_reserved ho] at h
      cases h
      exact .inl ⟨code, tail, ho, rfl, rfl, rfl⟩
    | some row =>
      simp only [decodeRecord, ho] at h
      obtain ⟨hrow, rfl⟩ := opOfCode_eq_some ho
      rw [code_of_mem_opTable row hrow]
      exact .inr (decodeOperands_eq_ok h)

/-- No proper beginning of a record is read: what it would decode to would begin the whole record too, and the decoder
would go on behind it. -/
theorem decodeRecord_take_encode {i : Instr} (hwf : i.wf = true) (hspace : i.space = .record)
    (hreserved : ∀ c, i ≠ .reserved c) {k : Nat} (hk : k < (encode i).length) :
    ∃ e, decodeRecord ((encode i).take k) = .error e := by
  have hwhole : decodeRecord ((encode i).take k ++ (encode i).drop k) = .ok (i, []) := by
    simpa using decodeRecord_encode_append hwf hspace hreserved []
  cases hd : decodeRecord ((encode i).take k) with
  | error e => exact ⟨e, rfl⟩
  | ok read =>
    obtain ⟨j, rest⟩ := read
    exfalso
    rcases decodeRecord_eq_ok hd with ⟨c, tail, hc, -, -, hcut⟩ | ⟨hj, hjr, hcut⟩
    · rw [hcut, List.cons_append, decodeRecord_of_reserved hc] at hwhole
      cases hwhole
      exact hreserved c rfl
    · rw [← hcut, List.append_assoc, decodeRecord_encode_append hj (space_of_decodeRecord hd) hjr] at hwhole
      have hnone : (encode i).drop k = [] := by simp_all
      exact absurd (List.drop_eq_nil_iff.mp hnone) (by omega)

/-! ### The record placed for the next fetch (30_encoding.md R106) -/

/-- The length of a record stands in its first seven bytes (R106). -/
theorem recordLength_append {header : Bytes} (h : 7 ≤ header.length) (tail : Bytes) :
    recordLength (header ++ tail) = recordLength header := by
  unfold recordLength
  rw [List.getD_append _ _ _ _ (by omega), get16_append_left (by omega), get16_append_left (by omega)]

/-- The 16-bit length in front of a sized operand (R106). -/
theorem toNat_get16_encodeSized {s : Bytes} (h : s.length ≤ 65535) (tail : Bytes) :
    (get16 (encodeSized s ++ tail) 0).toNat = s.length := by
  simpa [encodeSized, be16_eq] using toNat_ofNat16 h

/-- The length read from the header of a record is that of its encoding (R106). -/
theorem recordLength_encode_append {i : Instr} (hwf : i.wf = true) (hspace : i.space = .record) (tail : Bytes) :
    recordLength (encode i ++ tail) = (encode i).length := by
  cases i with
  | nop | crcClr | crcRd | status | tick | padpTxstep | cancel | close | reset | crcUpd | rxByte | crcChk => rfl
  | slpTx p =>
    have hn := toNat_get16_encodeSized ((bodyFits_iff _).mp hwf) tail
    exact (congrArg (7 + ·) hn).trans (by simp [encode]; omega)
  | padpSend txid opts payload =>
    have hn := toNat_get16_encodeSized ((bodyFits_iff _).mp hwf) tail
    exact (congrArg (5 + ·) hn).trans (by simp [encode]; omega)
  | reserved code =>
    have hnone : opOfCode code = none := Option.isNone_iff_eq_none.mp hwf
    simp [recordLength, encode, hnone]
  | slpFrame | padpDataFirst | padpDataOnly | padpDataMid | padpDataLast | padpAck | padpIllegal =>
    exact nomatch hspace

/-- A placed record is cut, at the length its header gives, from that header and the zeros behind it. -/
theorem tableRecord_eq_take (nbits w : Nat) : ∃ header pad : Bytes, 7 ≤ header.length ∧
    tableRecord nbits w = (header ++ pad).take (recordLength header) :=
  ⟨numberBytes ((nbits + 7) / 8) (w % 2 ^ nbits) ++ List.replicate 7 0, _, by simp, rfl⟩

/-- A placed record has exactly its own length, so nothing is left behind it (R106). -/
theorem decodeRecord_tableRecord {nbits w : Nat} {i : Instr} {rest : Bytes}
    (h : decodeRecord (tableRecord nbits w) = .ok (i, rest)) : rest = [] := by
  rcases decodeRecord_eq_ok h with ⟨-, -, -, -, hrest, -⟩ | ⟨hwf, -, hbytes⟩
  · exact hrest
  · obtain ⟨header, pad, h7, hplaced⟩ := tableRecord_eq_take nbits w
    have hall : encode i ++ (rest ++ (header ++ pad).drop (recordLength header)) = header ++ pad := by
      rw [← List.append_assoc, hbytes, hplaced, List.take_append_drop]
    have hlen : (encode i).length = recordLength header := by
      rw [← recordLength_encode_append hwf (space_of_decodeRecord h), hall, recordLength_append h7]
    have hroom : (encode i).length + rest.length ≤ recordLength header := by
      rw [← List.length_append, hbytes, hplaced]
      exact List.length_take_le _ _
    exact List.length_eq_zero_iff.mp (by omega)

/-! ### Reading a fragment back (30_encoding.md R100, R102) -/

/-- A fragment decodes to the row its flags name, over the three header bytes it was read from (R100, R102). -/
theorem decodeFragment_eq_ok {txid : Byte} {body : Bytes} {i : Instr} (h : decodeFragment txid body = .ok i) :
    ∃ flags size data, body = mkFragment flags size data ∧ i = fragmentOfFlags txid flags size data := by
  match body, h with
  | flags :: hi :: lo :: data, h =>
    cases h
    exact ⟨flags, word16 hi lo, data, by simp [mkFragment], rfl⟩

/-! ### The statements of the encodings -/

/-- Settles O2: one round trip a row of the opcode table. -/
theorem encodingsDecodeBack : Obligations.EncodingsDecodeBack := by
  intro i
  cases i with
  | nop => exact Laws.RoundTrip.nop
  | crcClr => exact Laws.RoundTrip.crcClr
  | crcUpd b => exact Laws.RoundTrip.crcUpd b
  | crcRd => exact Laws.RoundTrip.crcRd
  | crcChk v => exact Laws.RoundTrip.crcChk v
  | slpTx p => exact Laws.RoundTrip.slpTx p
  | padpSend txid opts payload => exact Laws.RoundTrip.padpSend txid opts payload
  | status => exact Laws.RoundTrip.status
  | rxByte b => exact Laws.RoundTrip.rxByte b
  | tick => exact Laws.RoundTrip.tick
  | padpTxstep => exact Laws.RoundTrip.padpTxstep
  | cancel => exact Laws.RoundTrip.cancel
  | close => exact Laws.RoundTrip.close
  | reset => exact Laws.RoundTrip.reset
  | reserved code => exact Laws.RoundTrip.reserved code
  | slpFrame p => exact Laws.RoundTrip.slpFrame p
  | padpDataFirst txid rsv size data => exact Laws.RoundTrip.padpDataFirst txid rsv size data
  | padpDataOnly txid ack rsv size data => exact Laws.RoundTrip.padpDataOnly txid ack rsv size data
  | padpDataMid txid rsv size data => exact Laws.RoundTrip.padpDataMid txid rsv size data
  | padpDataLast txid ack rsv size data => exact Laws.RoundTrip.padpDataLast txid ack rsv size data
  | padpAck txid rsv size data => exact Laws.RoundTrip.padpAck txid rsv size data
  | padpIllegal txid rsv size data => exact Laws.RoundTrip.padpIllegal txid rsv size data

/-- Settles O3: a record is read back whatever follows it, and behind a reserved code nothing is left. -/
theorem traceIsConcatenationOfRecords : Obligations.TraceIsConcatenationOfRecords :=
  ⟨fun _ rest hwf hspace hreserved => decodeRecord_encode_append hwf hspace hreserved rest,
    fun _ rest hwf => decodeRecord_of_reserved (Option.isNone_iff_eq_none.mp hwf) rest⟩

/-- Settles O4: a reserved code has no row, and any other record is the encoding of what it decodes to. -/
theorem decodedRecordReencodes : Obligations.DecodedRecordReencodes := by
  intro bytes rest i h
  rcases decodeRecord_eq_ok h with ⟨c, tail, hc, rfl, rfl, rfl⟩ | ⟨hwf, -, hbytes⟩
  · exact ⟨Option.isNone_iff_eq_none.mpr hc, .inl ⟨c, tail, rfl, rfl, rfl⟩⟩
  · exact ⟨hwf, .inr hbytes⟩

/-- Settles O5: what passes the frame's tests is the frame of its packet, and a fragment's flags are
the fields of its row. -/
theorem decodedWireReencodes : Obligations.DecodedWireReencodes := by
  refine ⟨fun f i h => ?_, fun txid body i hlen h => ?_⟩
  · obtain ⟨p, rfl, hp, rfl⟩ := decodeFrame_ok h
    exact ⟨(bodyFits_iff _).mpr hp, rfl⟩
  · obtain ⟨flags, size, data, rfl, rfl⟩ := decodeFragment_eq_ok h
    rw [mkFragment_length] at hlen
    exact ⟨(wf_fragmentOfFlags ..).trans ((fragmentFits_iff _).mpr hlen), space_fragmentOfFlags ..,
      encode_fragmentOfFlags ..⟩

/-- Settles O8: a cut record is not empty and does not decode. -/
theorem truncatedRecordIsRefused : Obligations.TruncatedRecordIsRefused := by
  intro i k s hwf hspace hreserved hpos hk htrace
  obtain ⟨e, he⟩ := decodeRecord_take_encode hwf hspace hreserved hk
  rw [← htrace] at he
  refine step_of_error (fun hnil => ?_) he
  have hlen := congrArg List.length (htrace.symm.trans hnil)
  simp only [List.length_take, List.length_nil] at hlen
  omega

/-- Settles O9: what the placed record decodes to leaves nothing behind it, and the step runs it. -/
theorem placedWordRunsNext : Obligations.PlacedWordRunsNext := by
  intro s nbits w i h
  unfold decodeTableWord at h
  split at h
  · rename_i j rest hd
    cases h
    obtain rfl := decodeRecord_tableRecord hd
    exact step_of_record (s := s.withFetchWord nbits w) hd
  · cases h

/-- Settles O19: each 16-bit field is the two bytes it is written as, and the header sum is the sum of the
nine bytes' values. -/
theorem slpEncodeLayout : Obligations.SlpEncodeLayout := by
  intro p hp
  obtain ⟨hi, lo, hbytes, hword⟩ := be16_eq_pair (BitVec.ofNat 16 p.body.length)
  obtain ⟨chi, clo, hcrc, hcword⟩ := be16_eq_pair (crc16 (slpHeader p ++ p.body))
  have hheader : slpHeader p = [0xBE, 0xEF, 0xED, p.dst, p.src, p.type, hi, lo, p.txid] ++
      [BitVec.ofNat 8 ([0xBE, 0xEF, 0xED, p.dst, p.src, p.type, hi, lo, p.txid].map BitVec.toNat).sum] := by
    rw [← byteSum_eq, slpHeader, hbytes]
    rfl
  refine ⟨hi, lo, ?_, ⟨chi, clo, ?_, ?_⟩, slpEncode_length p, slpDecode_slpEncode p hp⟩
  · exact (congrArg BitVec.toNat hword).trans (toNat_ofNat16 hp)
  · rw [← hheader]
    exact hcword
  · rw [← hheader, ← hcrc]
    rfl

/-- Settles O26: the frame's records feed its bytes, and an illegal configuration refuses the first of them. -/
theorem frameArrivesByteByByte : Obligations.FrameArrivesByteByByte := by
  intro p rest s
  obtain ⟨b, bs, hframe⟩ : ∃ b bs, slpEncode p = b :: bs := ⟨_, _, rfl⟩
  by_cases hv : s.cfg.Valid
  · have hexec : exec (.slpFrame p) (s.offering rest) =
        .next (feed (slpEncode p) (State.offering { s with reply := none } rest)) :=
      (exec_eq_perform (by simp) _).trans (perform_of_valid (s := s.offering rest) hv _)
    rw [hframe] at hexec ⊢
    exact (run_rxRecords b bs rest hv).trans hexec.symm
  · have hfirst : step (s.offering (rxRecords (b :: bs) ++ rest)) = .refused .invalidConfiguration :=
      (step_of_record (i := .rxByte b) (rest := rxRecords bs ++ rest) rfl).trans (exec_of_invalid _ hv)
    rw [hframe]
    exact (run_succ_of_refused hfirst).trans (exec_of_invalid _ (s := s.offering rest) hv).symm

/-- Bytes that are the encoding of a well-formed instruction decode, in its space, to it. -/
theorem decode_of_encode_eq {i : Instr} {space : Space} {bytes : Bytes} (hwf : i.wf = true) (hspace : i.space = space)
    (hbytes : encode i = bytes) : decode space bytes = .ok i := by
  subst hspace hbytes
  exact encodingsDecodeBack i hwf

/-- Settles O1: each word is the encoding of its instruction, so it decodes back to it. -/
theorem writtenWordsDecode : Obligations.WrittenWordsDecode :=
  ⟨decode_of_encode_eq rfl rfl rfl, decode_of_encode_eq rfl rfl rfl, decode_of_encode_eq rfl rfl rfl,
    decode_of_encode_eq rfl rfl rfl, decode_of_encode_eq rfl rfl rfl, decode_of_encode_eq rfl rfl rfl,
    decode_of_encode_eq rfl rfl rfl, decode_of_encode_eq rfl rfl (by decide +kernel),
    decode_of_encode_eq rfl rfl rfl, decode_of_encode_eq rfl rfl rfl⟩

/-- Settles O6: a step runs what its trace decodes to, and a record at the head of the trace is read back. -/
theorem stepRunsTheNextRecord : Obligations.StepRunsTheNextRecord :=
  ⟨fun _ _ _ hd => step_of_record hd, fun _ _ rest hwf hspace hreserved htrace =>
    step_of_record (htrace ▸ decodeRecord_encode_append hwf hspace hreserved rest)⟩

/-- Settles O50: a reserved code is read as the reserved instruction with nothing behind it, which answers `REFUSED`. -/
theorem reservedCodeIsRefused : Obligations.ReservedCodeIsRefused := by
  intro c s hv
  refine ⟨exec_reserved c hv, fun hc rest => ?_⟩
  rw [step_of_record (decodeRecord_of_reserved ((opOfCode_eq_none_iff c).mpr hc) rest)]
  exact exec_reserved c (s := { s with trace := [] }) hv

end Sys2Proof

namespace Sys2Proof.Machine

/-! ### What the CRC register does not influence (40_crc16.md R139) -/

/-- A received effect that does not read `crc` or the trace does not read them where `closed` discards it, either. -/
theorem received_beside {f : State → State} {s : State} {c : Word16} {tr : Bytes}
    (hf : f (s.beside c tr) = (f s).beside c tr) : (s.beside c tr).received f = (s.received f).beside c tr := by
  rw [State.received, State.received, ← ite_beside, ← hf]
  rfl

theorem txstepEffect_beside (s : State) (c : Word16) (tr : Bytes) :
    txstepEffect (s.beside c tr) = (txstepEffect s).beside c tr := by
  simp only [txstepEffect_eq, ← ite_beside]
  rfl

theorem tickEffect_beside (s : State) (c : Word16) (tr : Bytes) :
    tickEffect (s.beside c tr) = (tickEffect s).beside c tr := by
  simp only [tickEffect_eq, ← ite_beside]
  rfl

theorem cancelEffect_beside (s : State) (c : Word16) (tr : Bytes) :
    cancelEffect (s.beside c tr) = (cancelEffect s).beside c tr := by
  rcases Bool.eq_false_or_eq_true s.closed with hc | ho
  · rw [cancelEffect_of_closed hc, cancelEffect_of_closed (s := s.beside c tr) hc]
    rfl
  · rw [cancelEffect_of_open ho, cancelEffect_of_open (s := s.beside c tr) ho]
    rfl

/-- No effect but those of `CRC.RD` and `CRC.CHK` shows the value of `crc` outside `crc`, one case a row of the opcode
table. Nor does any read the records still to be taken. -/
theorem effectOf_beside {i : Instr} (hrd : i ≠ .crcRd) (hchk : ∀ v, i ≠ .crcChk v) (s : State) (c : Word16) (tr : Bytes) :
    ∃ c', effectOf i (s.beside c tr) = (effectOf i s).beside c' tr := by
  cases i with
  | crcRd => exact absurd rfl hrd
  | crcChk v => exact absurd rfl (hchk v)
  | nop | status | reserved => exact ⟨c, rfl⟩
  | crcClr | reset => exact ⟨0x0000, rfl⟩
  | crcUpd b => exact ⟨crc16Update c b, rfl⟩
  | slpTx | padpSend =>
    refine ⟨c, ?_⟩
    simp only [effectOf, ← ite_beside]
    rfl
  | tick => exact ⟨c, tickEffect_beside s c tr⟩
  | padpTxstep => exact ⟨c, txstepEffect_beside s c tr⟩
  | cancel | close => exact ⟨c, cancelEffect_beside s c tr⟩
  | rxByte b => exact ⟨c, rxByteEffect_beside b s c tr⟩
  | slpFrame p => exact ⟨c, feed_beside (slpEncode p) s c tr⟩
  | padpDataFirst txid _ size data => exact ⟨c, received_beside (dataFirst_beside txid size.toNat data s c tr)⟩
  | padpDataOnly txid ack _ size data => exact ⟨c, received_beside (dataOnly_beside txid ack size.toNat data s c tr)⟩
  | padpDataMid txid _ size data => exact ⟨c, received_beside (dataMid_beside txid size.toNat data s c tr)⟩
  | padpDataLast txid ack _ size data => exact ⟨c, received_beside (dataLast_beside txid ack size.toNat data s c tr)⟩
  | padpAck txid => exact ⟨c, received_beside (ackInput_beside txid s c tr)⟩
  | padpIllegal => exact ⟨c, received_beside (f := State.protocolError) rfl⟩

/-- An instruction answers its effect under a legal configuration, `PADP.TXSTEP` where it is enabled: with `exec_eq_next`
this is all that is needed for an answer. -/
theorem exec_of_valid {i : Instr} {s : State} (hv : s.cfg.Valid) (he : i = .padpTxstep → s.txstepEnabled = true) :
    exec i s = .next (effectOf i { s with reply := none }) := by
  by_cases hi : i = .padpTxstep
  · subst hi
    rw [exec_padpTxstep_of_enabled (he rfl), perform_of_valid hv]
    rfl
  · rw [exec_eq_perform hi, perform_of_valid hv]

/-- What an instruction answers from one value of `crc` it answers from any, up to the value of `crc`. -/
theorem exec_beside {i : Instr} {s t : State} (h : exec i s = .next t) (hrd : i ≠ .crcRd) (hchk : ∀ v, i ≠ .crcChk v)
    (c : Word16) (tr : Bytes) : ∃ c', exec i (s.beside c tr) = .next (t.beside c' tr) := by
  obtain ⟨hv, rfl, he⟩ := exec_eq_next h
  obtain ⟨c', heffect⟩ := effectOf_beside hrd hchk { s with reply := none } c tr
  exact ⟨c', heffect ▸ exec_of_valid (s := s.beside c tr) hv he⟩

/-! ### The trailer and the errors it shows (40_crc16.md R136 to R138) -/

/-- The residue of a message and a trailer is zero exactly when the trailer is the message's CRC (R137). -/
theorem crc16_append_be16_eq_zero_iff (m : Bytes) (t : Word16) : crc16 (m ++ be16 t) = 0#16 ↔ crc16 m = t := by
  rw [crc16_append, crc16From_be16, crc16Turn8_eq_zero_iff, crc16Turn8_eq_zero_iff, BitVec.xor_eq_zero_iff]

/-- Acceptance in its residue form (R136, R137). -/
theorem crcAccept_iff_residue (m : Bytes) (t : Word16) : crcAccept m t = true ↔ crc16 (m ++ be16 t) = 0#16 := by
  rw [crc16_append_be16_eq_zero_iff, crcAccept, beq_iff_eq]

/-- Inverting a bit of a byte changes the byte. -/
theorem xor_bit_ne {j : Nat} (hj : j < 8) (b : Byte) : b ^^^ (1#8 <<< j) ≠ b := by
  have hbit : ∀ j < 8, 1#8 <<< j ≠ 0#8 := by decide
  simpa using hbit j hj

/-- Inverting one bit of a byte sequence changes its CRC (R138 e). -/
theorem crc16_flipBit_ne {s : Bytes} {k j : Nat} (hk : k < s.length) (hj : j < 8) : crc16 (flipBit s k j) ≠ crc16 s := by
  have hs : s.take k ++ s[k] :: s.drop (k + 1) = s := by simp
  have hflip : flipBit s k j = s.take k ++ (s[k] ^^^ (1#8 <<< j)) :: s.drop (k + 1) :=
    List.modify_eq_take_cons_drop hk
  have hne : crc16 (s.take k ++ (s[k] ^^^ (1#8 <<< j)) :: s.drop (k + 1)) ≠
      crc16 (s.take k ++ s[k] :: s.drop (k + 1)) := by
    rw [crc16_append, crc16_append]
    exact crc16From_ne (crc16Update_ne _ (xor_bit_ne hj _)) _
  rwa [← hflip, hs] at hne

end Sys2Proof.Machine

namespace Sys2Proof

open Machine

/-- Settles O17: from another value of `crc` an instruction answers the same state up to `crc`, since none but `CRC.RD`
and `CRC.CHK` shows it. -/
theorem crcInfluencesNothingElse : Obligations.CrcInfluencesNothingElse := by
  intro i s t c h hrd hchk
  obtain ⟨c', hu⟩ := exec_beside h hrd hchk c s.trace
  refine ⟨t.beside c' s.trace, hu, ?_⟩
  rw [← (exec_frame h).trace]
  rfl

/-- Settles O12: the residue is the image of `crc16 m ^^^ t` under sixteen invertible turns; the swapped trailer by
evaluation. -/
theorem crcResidueIsZeroIffTrailerFits : Obligations.CrcResidueIsZeroIffTrailerFits :=
  ⟨crc16_append_be16_eq_zero_iff, by decide +kernel⟩

/-- Settles O13: linearity of one byte, carried over a sequence from the seed `0 ^^^ 0`; the values by evaluation. -/
theorem crcIsLinear : Obligations.CrcIsLinear := by
  refine ⟨crc16Update_xor, fun s t hlen => ?_, fun s => ?_, fun n => ?_, by decide +kernel⟩
  · simpa [crc16_eq_from] using crc16From_xor s t hlen 0#16 0#16
  · simp [crc16_eq_from]
  · exact (crc16From_zeros n 0#16).mpr rfl

/-- Settles O14: the accepted sequence has residue zero, and the inverted bit changes the residue. -/
theorem crcDetectsEverySingleBitError : Obligations.CrcDetectsEverySingleBitError := by
  intro m m' t t' k j hj hk haccept hflip
  have hresidue : crc16 (m ++ be16 t) = 0#16 := (crcAccept_iff_residue m t).mp haccept
  have hchanged : crc16 (flipBit (m ++ be16 t) k j) ≠ crc16 (m ++ be16 t) := crc16_flipBit_ne (by simpa using hk) hj
  rw [hflip, hresidue] at hchanged
  exact Bool.eq_false_iff.mpr (mt (crcAccept_iff_residue m' t').mp hchanged)

/-- Settles O11: the fold over a sequence and one more byte; the ten accumulators by evaluation. -/
theorem crcIsLeftFold : Obligations.CrcIsLeftFold :=
  ⟨rfl, fun s b => crc16_append s [b], by decide +kernel⟩

/-- Settles O15: each command answers its effect, and each record is read by its row's format. -/
theorem crcCommandsComplete : Obligations.CrcCommandsComplete := by
  intro s hv
  exact ⟨exec_of_valid hv nofun, fun b => exec_of_valid hv nofun, exec_of_valid hv nofun, fun v => exec_of_valid hv nofun,
    rfl, fun _ => rfl, rfl, fun _ _ => rfl⟩

end Sys2Proof

namespace Sys2Proof

open Machine

/-! ### Frames written (41_slp_tx.md R150 to R154) -/

/-- Two bytes hold no length over 65535 (R8). -/
theorem length_le_of_toNat {hi lo : Byte} {s : Bytes} (h : (hi ++ lo).toNat = s.length) : s.length ≤ 65535 :=
  h ▸ Nat.le_of_lt_succ (hi ++ lo).isLt

/-- A sized operand is written as the two bytes of its length and itself (R106). -/
theorem encodeSized_eq_of_toNat {hi lo : Byte} {s : Bytes} (h : (hi ++ lo).toNat = s.length) :
    encodeSized s = [hi, lo] ++ s := by
  have hlength : BitVec.ofNat 16 s.length = word16 hi lo :=
    BitVec.eq_of_toNat_eq ((toNat_ofNat16 (length_le_of_toNat h)).trans h.symm)
  rw [encodeSized, hlength, be16_word16]

/-- Settles O25: every proper beginning of a frame waits for its next byte and the whole of it is accepted; a frame over
the bound is rejected with its header, and what is left holds no signature, so at most a beginning of one stays. -/
theorem frameRoundTrip : Obligations.FrameRoundTrip := by
  refine ⟨fun p s hv hwin hopen hbody => ?_, fun p s hv => exec_of_valid hv nofun,
    fun p s _ hwin hopen hlong hbody hsig => feed_frame_too_long hwin hopen p hlong hbody hsig⟩
  obtain ⟨-, -, hmax, -⟩ := hv
  exact ⟨fun k hk => feed_prefix_of_frame hwin hopen hmax p hbody hk, feed_frame_eq hwin hopen hmax p hbody,
    (deliver_win p s).trans hwin⟩

/-- Settles O18: the record is the encoding of `SLP.TX` over the two length bytes, and under a legal configuration
the command answers its effect, the three tests in order. -/
theorem slpTxOutcomes : Obligations.SlpTxOutcomes := by
  refine ⟨fun p hi lo hlen => ?_, fun p s hv => exec_of_valid hv nofun⟩
  refine decode_of_encode_eq ((bodyFits_iff _).mpr (length_le_of_toNat hlen)) rfl ?_
  rw [encode, encodeSized_eq_of_toNat hlen]
  rfl

end Sys2Proof

namespace Sys2Proof.Machine

/-! ### The tests of a turn of the scan (42_slp_rx.md R166, R170) -/

/-- The trailer test fails exactly when the CRC differs from the trailer (R136, R170). -/
theorem crcAccept_eq_false_iff (m : Bytes) (t : Word16) : crcAccept m t = false ↔ crc16 m ≠ t := beq_eq_false_iff_ne

/-- Where the window holds as many body bytes as its length field says, the decoded body has that length (R97). -/
theorem slpDecode_body_length {w : Bytes} (h : 12 + (get16 w 6).toNat ≤ w.length) :
    (slpDecode w).body.length = (get16 w 6).toNat := by
  simp only [slpDecode, List.length_take, List.length_drop]
  omega

/-- Behind a right header with a body size within the bound the scan waits until the body and the trailer have arrived,
whatever bytes they are (R166). -/
theorem examine_header_append_take {maxBody : Nat} (hmax : maxBody ≤ 65535) (p : Packet)
    (hp : p.body.length ≤ maxBody) (t : Bytes) {k : Nat} (hk : k < 12 + p.body.length) : examine maxBody ((slpHeader p ++ t).take k) = .wait := by
  rcases Nat.lt_or_ge k 10 with hshort | hlong
  · rw [List.take_append_of_le_length (by simpa using hshort.le)]
    exact examine_header_take maxBody p hshort
  · obtain ⟨i, rfl⟩ := Nat.exists_eq_add_of_le hlong
    rw [← slpHeader_length p, List.take_length_add_append, examine_header_append maxBody p (by omega),
      if_neg (by omega), if_pos (by rw [List.length_take]; omega)]

/-- Header and body with a trailer that is not their CRC are rejected (R170). -/
theorem examine_of_wrong_trailer (maxBody : Nat) (p : Packet) (hp : p.body.length ≤ 65535) {body : Bytes} {t : Word16}
    (hlen : body.length = p.body.length) (hne : crc16 (slpHeader p ++ body) ≠ t) :
    examine maxBody (slpHeader p ++ (body ++ be16 t)) = .reject := by
  have htake : (body ++ be16 t).take p.body.length = body := hlen ▸ List.take_left
  have htrailer : get16 (body ++ be16 t) p.body.length = t := by
    rw [← hlen, ← Nat.add_zero body.length, get16_append_right]
    exact word16_extract t
  have harrived : ¬ (body ++ be16 t).length < p.body.length + 2 := by simp [hlen]
  rw [examine_header_append maxBody p hp, htake, htrailer, if_neg harrived,
    if_pos ((crcAccept_eq_false_iff _ _).mpr hne), ite_self]

/-! ### A frame with one bit inverted (42_slp_rx.md R179) -/

theorem flipBit_append_left {s : Bytes} {k : Nat} (hk : k < s.length) (j : Nat) (t : Bytes) :
    flipBit (s ++ t) k j = flipBit s k j ++ t := by
  induction s generalizing k with
  | nil => cases hk
  | cons b s ih =>
    cases k with
    | zero => rfl
    | succ k => exact congrArg (b :: ·) (ih (Nat.lt_of_succ_lt_succ hk))

theorem flipBit_append_right (s t : Bytes) (k j : Nat) : flipBit (s ++ t) (s.length + k) j = s ++ flipBit t k j := by
  induction s with
  | nil => rw [List.nil_append, List.length_nil, Nat.zero_add, List.nil_append]
  | cons b s ih => rw [List.length_cons, Nat.succ_add]; exact congrArg (b :: ·) ih

@[simp] theorem flipBit_length (s : Bytes) (k j : Nat) : (flipBit s k j).length = s.length := List.length_modify ..

/-- Inverting a body bit of a frame leaves its header and its trailer (R90). -/
theorem flipBit_slpEncode (p : Packet) {i : Nat} (hi : i < p.body.length) (j : Nat) :
    flipBit (slpEncode p) (10 + i) j =
      slpHeader p ++ (flipBit p.body i j ++ be16 (crc16 (slpHeader p ++ p.body))) := by
  rw [slpEncode_eq, ← slpHeader_length p, flipBit_append_right, flipBit_append_left hi]

/-- A frame with a body bit inverted is rejected, since its trailer no longer fits (R138 e, R170). -/
theorem examine_flipBit_slpEncode (maxBody : Nat) (p : Packet) (hp : p.body.length ≤ 65535) {i j : Nat}
    (hi : i < p.body.length) (hj : j < 8) : examine maxBody (flipBit (slpEncode p) (10 + i) j) = .reject := by
  have hcrc : crc16 (slpHeader p ++ flipBit p.body i j) ≠ crc16 (slpHeader p ++ p.body) := by
    rw [← flipBit_append_right, slpHeader_length]
    exact crc16_flipBit_ne (by simpa using hi) hj
  rw [flipBit_slpEncode p hi]
  exact examine_of_wrong_trailer maxBody p hp (flipBit_length ..) hcrc

/-- Bytes that wait until the last one has arrived and are rejected then leave at most a beginning of a signature, where
those after the first contain no signature (R172). -/
theorem feed_of_reject {s : State} (hwin : s.win = []) (hopen : s.closed = false) {g : Bytes}
    (hwait : ∀ k < g.length, examine s.cfg.slpMaxBody (g.take k) = .wait)
    (hreject : examine s.cfg.slpMaxBody g = .reject) (hsig : ∀ u v : Bytes, g.drop 1 ≠ u ++ slpSig ++ v) :
    ∃ w : Bytes, (w = [] ∨ w = [0xBE] ∨ w = [0xBE, 0xEF]) ∧ feed g s = { s with win := w } := by
  obtain ⟨w, hw, -, hscan⟩ := scan_of_no_signature hsig s
  refine ⟨w, hw, ?_⟩
  rw [feed_eq_scan hwin hopen hwait, scan_of_reject (s := { s with win := g }) hreject]
  exact hscan

/-- A frame that arrives behind a beginning of a signature is delivered as from an empty window (R154, R167). -/
theorem feed_frame_eq_behind_signature_prefix {s : State} (hwin : s.win = []) (hopen : s.closed = false)
    (hmax : s.cfg.slpMaxBody ≤ 65535) {w : Bytes} (hw : w = [] ∨ w = [0xBE] ∨ w = [0xBE, 0xEF]) (p : Packet)
    (hp : p.body.length ≤ s.cfg.slpMaxBody) : feed (slpEncode p) { s with win := w } = deliver p s := by
  have hempty : { s with win := [] } = s := by rw [← hwin]
  rw [feed_frame_behind_signature_prefix hopen hw, hempty, feed_frame_eq hwin hopen hmax p hp]

/-! ### Delivery by destination socket (42_slp_rx.md R174) -/

theorem deliver_of_not_mem {p : Packet} {s : State} (h : p.dst ∉ s.cfg.slpSubs) : deliver p s = s := if_pos h

theorem deliver_of_outside {p : Packet} {s : State} (hmem : p.dst ∈ s.cfg.slpSubs)
    (hne : p.dst ≠ s.cfg.padpLocalSocket) : deliver p s = s.emit (.slpRx p.dst p.src p.type p.txid p.body) :=
  (if_neg (not_not.mpr hmem)).trans (if_neg hne)

theorem deliver_of_local {p : Packet} {s : State} (hmem : s.cfg.padpLocalSocket ∈ s.cfg.slpSubs)
    (heq : p.dst = s.cfg.padpLocalSocket) : deliver p s = padpInput p s :=
  (if_neg (not_not.mpr (heq ▸ hmem))).trans (if_pos heq)

/-- A frame that arrives in an empty window of an open LE is delivered, and there is no return value (R154). -/
theorem exec_slpFrame_eq {s : State} (hv : s.cfg.Valid) (hwin : s.win = []) (hopen : s.closed = false) {p : Packet}
    (hp : p.body.length ≤ s.cfg.slpMaxBody) : exec (.slpFrame p) s = .next (deliver p { s with reply := none }) := by
  obtain ⟨-, -, hmax, -⟩ := id hv
  exact (exec_of_valid (i := .slpFrame p) hv nofun).trans
    (congrArg _ (feed_frame_eq (s := { s with reply := none }) hwin hopen hmax p hp))

end Sys2Proof.Machine

namespace Sys2Proof

open Machine

/-! ### The receive path (42_slp_rx.md R165 to R179) -/

/-- Settles O21: the tests of the rule are those of one turn, in the same order; each that fails drops a byte, and the
length of the decoded body is the length field. -/
theorem scanFollowsItsRule : Obligations.ScanFollowsItsRule := by
  intro s n dropped k
  rw [scan_eq, examine_eq]
  simp only [crcAccept_eq_false_iff]
  split_ifs with hempty hsig hshort hsum hlong hmissing hcrc
  · rfl
  · rfl
  · rfl
  · rfl
  · rfl
  · rfl
  · rfl
  · have hbody := slpDecode_body_length (not_lt.mp hmissing)
    show scan (deliver (slpDecode s.win) { s with win := s.win.drop (12 + (slpDecode s.win).body.length) }) = _
    rw [hbody]
    rfl

/-- Settles O22: the record is read by its row's format, and the byte's effect under a legal configuration is the
rule's. -/
theorem rxByteOutcome : Obligations.RxByteOutcome :=
  ⟨fun _ => rfl, fun _ _ hv => exec_of_valid hv nofun⟩

/-- Settles O23: the byte's effect is on the receive path, which keeps all of this. -/
theorem rxByteFrame : Obligations.RxByteFrame := by
  intro b s hv
  obtain ⟨hcfg, hcrc, hclosed, htxid, hackreq, hbuf, hoff, htimer, hretries, htrace, hreply, hstate, added, hout⟩ :=
    rxByteEffect_frame b { s with reply := none }
  exact ⟨_, exec_of_valid hv nofun, hcfg, hcrc, hclosed, htxid, hackreq, hbuf, hoff, htimer, hretries, htrace, hreply,
    ⟨added, hout.symm⟩, hstate⟩

/-- Settles O24: the scan ends only where it waits for a byte. -/
theorem windowPendingAfterRxByte : Obligations.WindowPendingAfterRxByte := by
  intro b s t hopen hexec
  obtain ⟨-, rfl, -⟩ := exec_eq_next hexec
  rw [effectOf, rxByteEffect_of_open (by exact hopen)]
  exact windowIsPending_of_wait (scan_settled _)

/-- Settles O27: the frame is delivered at its last byte, and delivery is by destination socket. -/
theorem deliveryFiltersBySocket : Obligations.DeliveryFiltersBySocket := by
  intro p s hv hwin hopen hp
  obtain ⟨-, -, -, -, -, hlocal⟩ := id hv
  rw [exec_slpFrame_eq hv hwin hopen hp]
  exact ⟨fun hmem => congrArg _ (deliver_of_not_mem hmem), fun hmem hne => congrArg _ (deliver_of_outside hmem hne),
    fun heq => congrArg _ (deliver_of_local hlocal heq)⟩

/-- Settles O28: the header is intact, so the frame is held until its last byte; there the CRC rejects it, and the
beginning of a signature that may stay does not impair the next frame. -/
theorem bitFlipDropsOnlyItsFrame : Obligations.BitFlipDropsOnlyItsFrame := by
  intro p q k j s hv hwin hopen hp hq hlow hhigh hj hsig
  obtain ⟨-, -, hmax, -⟩ := hv
  obtain ⟨i, rfl⟩ := Nat.exists_eq_add_of_le hlow
  have hi : i < p.body.length := by omega
  have hlen : (flipBit (slpEncode p) (10 + i) j).length = 12 + p.body.length := by simp
  have hwait : ∀ m < 12 + p.body.length,
      examine s.cfg.slpMaxBody ((flipBit (slpEncode p) (10 + i) j).take m) = .wait := by
    rw [flipBit_slpEncode p hi]
    exact fun m hm => examine_header_append_take hmax p hp _ hm
  obtain ⟨w, hw, hdropped⟩ := feed_of_reject hwin hopen (hlen ▸ hwait)
    (examine_flipBit_slpEncode _ p (by omega) hi hj) hsig
  refine ⟨fun m hm => ?_, ⟨w, hw, hdropped⟩, ?_⟩
  · exact feed_take_of_wait hwin hopen (by omega) fun m' hm' => hwait m' (by omega)
  · rw [feed_append, hdropped]
    exact feed_frame_eq_behind_signature_prefix hwin hopen hmax hw q hq

end Sys2Proof

namespace Sys2Proof.Machine

/-! ### The fragments of a message (43_padp_send.md R191) -/

/-- The offset of a fragment is in the payload, and the payload reaches to its end only at the last fragment. -/
theorem fragment_offset {fragSize len i : Nat} (h : 1 ≤ fragSize) (hi : i < fragmentCount fragSize len) :
    (0 < len → i * fragSize < len) ∧ (len ≤ i * fragSize + fragSize ↔ i + 1 = fragmentCount fragSize len) := by
  obtain ⟨-, hcover, hfull, hneeded⟩ := fragmentCount_bounds (len := len) h
  have hoff : i * fragSize ≤ (fragmentCount fragSize len - 1) * fragSize := Nat.mul_le_mul_right _ (by omega)
  refine ⟨fun hpos => hoff.trans_lt (hneeded hpos), fun hend => ?_, fun hlast => ?_⟩
  · by_contra hne
    have hnext : (i + 1) * fragSize ≤ (fragmentCount fragSize len - 1) * fragSize := Nat.mul_le_mul_right _ (by omega)
    rw [Nat.succ_mul] at hnext
    have hpos : 0 < len := by omega
    exact absurd (hneeded hpos) (by omega)
  · rwa [← hlast, Nat.succ_mul] at hcover

/-- A fragment says that it is the last exactly where the count of the rule does. -/
theorem frag_last_eq {fragSize i : Nat} {payload : Bytes} (ackreq : Bool) (h : 1 ≤ fragSize)
    (hi : i < fragmentCount fragSize payload.length) :
    (frag fragSize payload ackreq (i * fragSize)).last = decide (i + 1 = fragmentCount fragSize payload.length) :=
  Bool.eq_iff_iff.mpr <| by rw [frag_last_iff, decide_eq_true_iff, (fragment_offset h hi).2]

theorem frag_count_eq (fragSize : Nat) (payload : Bytes) (ackreq : Bool) (o : Nat) :
    (frag fragSize payload ackreq o).count = min fragSize (payload.length - o) := by
  simp only [frag, List.length_take, List.length_drop]

/-- A fragment's body by its last mark: the header is that of the rule, the data are cut at its offset. -/
theorem frag_body_eq {fragSize o : Nat} {payload : Bytes} {ackreq last : Bool}
    (h : (frag fragSize payload ackreq o).last = last) :
    (frag fragSize payload ackreq o).body =
      mkFragment (mkFlags (o == 0) last (last && ackreq) 0) (BitVec.ofNat 16 (if o = 0 then payload.length else o))
        ((payload.drop o).take fragSize) := by
  subst h
  simp only [frag, beq_iff_eq]

/-- The body of the fragment at offset `i * F` is fragment `i` as the rule writes it. -/
theorem frag_body_eq_messageFragment {fragSize i : Nat} {payload : Bytes} (ackreq : Bool) (h : 1 ≤ fragSize)
    (hi : i < fragmentCount fragSize payload.length) :
    (frag fragSize payload ackreq (i * fragSize)).body =
      messageFragment fragSize (fragmentCount fragSize payload.length) payload ackreq i := by
  have hfirst : i * fragSize = 0 ↔ i = 0 := by simp [show fragSize ≠ 0 by omega]
  rw [frag_body_eq (frag_last_eq ackreq h hi), mkFlags_or]
  simp only [messageFragment, mkFragment, beq_iff_eq, decide_eq_true_eq, hfirst]

/-- Behind the three header bytes a fragment has its data. -/
theorem messageFragment_drop_header (fragSize total : Nat) (payload : Bytes) (ackreq : Bool) (i : Nat) :
    (messageFragment fragSize total payload ackreq i).drop 3 = (payload.drop (i * fragSize)).take fragSize := rfl

/-- Pieces of equal size cut from the front of a sequence are, in order, the front of it. -/
theorem flatMap_pieces_eq_take (size : Nat) (s : Bytes) (n : Nat) :
    (List.range n).flatMap (fun i => (s.drop (i * size)).take size) = s.take (n * size) := by
  induction n with
  | zero => simp
  | succ n ih => rw [List.range_succ, List.flatMap_append, ih, Nat.succ_mul, List.take_add, List.flatMap_singleton]

/-! ### The sender's effects, one case each (43_padp_send.md R190 to R199) -/

/-- The tests of reserved option bits in the model and in the rule (R106, R190). -/
theorem optsReserved_iff : ∀ opts : Byte, optsReserved opts = true ↔ opts >>> 1 ≠ 0 := by decide +kernel

/-- `PADP.SEND` answers `OK` only where it takes the message (R190). -/
theorem exec_padpSend_ok {txid opts : Byte} {payload : Bytes} {s a : State}
    (hexec : exec (.padpSend txid opts payload) s = .next a) (hok : a.reply = some ⟨.ok, .none⟩) :
    s.cfg.Valid ∧
      a = { s with txBuf := payload, txTxid := txid, txAckreq := opts.getLsbD 0, txOff := 0, txState := .sending,
                   reply := some ⟨.ok, .none⟩ } := by
  obtain ⟨hv, rfl, -⟩ := exec_eq_next hexec
  refine ⟨hv, ?_⟩
  simp only [effectOf] at hok ⊢
  split_ifs at hok ⊢ with hclosed hreserved hbusy hlong
  · cases hok
  · cases hok
  · cases hok
  · cases hok
  · rfl

/-- A fragment before the last moves the offset to the next one (R194). -/
theorem txstepEffect_of_more {s : State} (h : s.currentFragment.last = false) :
    txstepEffect s = { s.writeFragment with txOff := s.txOff + s.cfg.padpFragSize } := by
  rw [txstepEffect_eq, if_pos h, currentFragment_eq, frag_count_of_not_last h]

/-- The last fragment starts the wait for its acknowledgement, or ends the send (R194, R195). -/
theorem txstepEffect_of_last {s : State} (h : s.currentFragment.last = true) :
    txstepEffect s =
      if s.txAckreq = true then
        { s.writeFragment with txState := .waitAck, txTimer := s.cfg.padpAckTimeout, txRetries := 0 }
      else s.writeFragment.endSend .ok := by
  rw [txstepEffect_eq, if_neg (by simp [h])]

/-- A sending step enters the wait only with the last fragment, its timer loaded (R194). -/
theorem txstepEffect_of_waits {s : State} (hs : s.txState = .sending) (hw : (txstepEffect s).txState = .waitAck) :
    txstepEffect s =
      { s.writeFragment with txState := .waitAck, txTimer := s.cfg.padpAckTimeout, txRetries := 0 } := by
  rw [txstepEffect_eq] at hw ⊢
  split_ifs at hw ⊢
  · exact absurd (hs.symm.trans hw) (by decide)
  · rfl
  · cases hw

/-- A matching acknowledgement ends the wait in an open LE; any other changes nothing (R196, R201, R257). -/
theorem received_ackInput (txid : Byte) (s : State) :
    s.received (ackInput txid) =
      if s.closed = false ∧ s.txState = .waitAck ∧ txid = s.txTxid then s.endSend .ok else s := by
  rcases Bool.eq_false_or_eq_true s.closed with hc | ho
  · rw [received_of_closed hc, if_neg (by simp [hc])]
  · rw [received_of_open ho, ackInput]
    simp only [ho, true_and]

section Waiting

variable {s : State} (hopen : s.closed = false) (hwait : s.txState = .waitAck)
include hopen hwait

/-- A tick before the last of the timer (R197). -/
theorem tickEffect_of_running (h : 1 < s.txTimer) : tickEffect s = { s with txTimer := s.txTimer - 1 } := by
  rw [tickEffect_eq, if_neg (by simp [hopen, hwait]), if_pos (by omega)]

/-- The tick at which the timer expires with a retry left writes the fragment again (R198). -/
theorem tickEffect_of_retry (h : s.txTimer ≤ 1) (hr : s.txRetries < s.cfg.padpMaxRetries) :
    tickEffect s = { s.writeFragment with txRetries := s.txRetries + 1, txTimer := s.cfg.padpAckTimeout } := by
  rw [tickEffect_eq, if_neg (by simp [hopen, hwait]), if_neg (by omega), if_pos hr]

/-- The tick at which the timer expires with no retry left ends the send (R199). -/
theorem tickEffect_of_timeout (h : s.txTimer ≤ 1) (hr : s.cfg.padpMaxRetries ≤ s.txRetries) :
    tickEffect s = { s with txTimer := 0 }.endSend .timeout := by
  rw [tickEffect_eq, if_neg (by simp [hopen, hwait]), if_neg (by omega), if_neg (by omega),
    show s.txTimer - 1 = 0 by omega]

end Waiting

/-! ### A send that is not acknowledged (43_padp_send.md R197 to R200) -/

/-- The frame `PADP.TXSTEP` and an expired timer write: the fragment at `tx_off` (R193, R198). -/
def State.currentFrame (s : State) : OutEvent :=
  .txBytes (slpEncode (padpPacket s.cfg s.txTxid s.currentFragment.body))

/-- The state `k` ticks after the step that wrote the last fragment, the send not yet ended (R197, R198): the timer has
expired `k / T` times. -/
def State.waitedFor (s : State) (k : Nat) : State :=
  { s with txState := .waitAck, txTimer := s.cfg.padpAckTimeout - k % s.cfg.padpAckTimeout,
           txRetries := k / s.cfg.padpAckTimeout,
           out := s.out ++ List.replicate (1 + k / s.cfg.padpAckTimeout) s.currentFrame, reply := none }

/-- One tick of the wait, before the last. -/
theorem tickEffect_waitedFor {s : State} {k : Nat} (hv : s.cfg.Valid) (hopen : s.closed = false)
    (hk : k + 1 < (1 + s.cfg.padpMaxRetries) * s.cfg.padpAckTimeout) :
    tickEffect (s.waitedFor k) = s.waitedFor (k + 1) := by
  obtain ⟨-, -, -, -, hT, -⟩ := hv
  have hmod : k % s.cfg.padpAckTimeout < s.cfg.padpAckTimeout := Nat.mod_lt _ hT
  have hk' := Nat.mod_add_div k s.cfg.padpAckTimeout
  rcases Nat.lt_or_ge (k % s.cfg.padpAckTimeout + 1) s.cfg.padpAckTimeout with hrun | hexpired
  · obtain ⟨hd, hm⟩ := (Nat.div_mod_unique (a := k + 1) (c := k % s.cfg.padpAckTimeout + 1)
      (d := k / s.cfg.padpAckTimeout) hT).mpr ⟨by omega, hrun⟩
    rw [tickEffect_of_running (s := s.waitedFor k) hopen rfl (by simp only [State.waitedFor]; omega)]
    simp only [State.waitedFor, hd, hm, Nat.sub_sub]
  · obtain ⟨hd, hm⟩ := (Nat.div_mod_unique (a := k + 1) (c := 0) (d := k / s.cfg.padpAckTimeout + 1) hT).mpr
      ⟨by rw [Nat.mul_succ]; omega, hT⟩
    have hretry : k / s.cfg.padpAckTimeout < s.cfg.padpMaxRetries := by
      have := (Nat.div_lt_iff_lt_mul hT).mpr hk
      omega
    rw [tickEffect_of_retry (s := s.waitedFor k) hopen rfl (by simp only [State.waitedFor]; omega) hretry]
    simp only [State.waitedFor, hd, hm, writeFragment_eq, ← Nat.add_assoc, List.replicate_succ', List.append_assoc]
    rfl

/-- The step that writes the last fragment of a send to be acknowledged begins the wait (R194). -/
theorem txstepEffect_eq_waitedFor {s : State} (hack : s.txAckreq = true) (hlast : s.currentFragment.last = true) :
    txstepEffect { s with reply := none } = s.waitedFor 0 := by
  rw [txstepEffect_of_last (by exact hlast), if_pos (by exact hack)]
  simp only [State.waitedFor, Nat.zero_mod, Nat.zero_div]
  rfl

/-- The last tick of the wait ends the send (R199). -/
theorem tickEffect_waitedFor_last {s : State} {k : Nat} (hv : s.cfg.Valid) (hopen : s.closed = false)
    (hk : k + 1 = (1 + s.cfg.padpMaxRetries) * s.cfg.padpAckTimeout) :
    tickEffect (s.waitedFor k) = { s.waitedFor k with txTimer := 0 }.endSend .timeout ∧
      k / s.cfg.padpAckTimeout = s.cfg.padpMaxRetries := by
  obtain ⟨-, -, -, -, hT, -⟩ := hv
  obtain ⟨hd, hm⟩ := (Nat.div_mod_unique (a := k) (c := s.cfg.padpAckTimeout - 1)
    (d := s.cfg.padpMaxRetries) hT).mpr ⟨by rw [Nat.add_mul, Nat.mul_comm s.cfg.padpMaxRetries] at hk; omega, by omega⟩
  exact ⟨tickEffect_of_timeout (s := s.waitedFor k) hopen rfl (by simp only [State.waitedFor]; omega) hd.ge, hd⟩

/-- One step after a run. -/
theorem run_succ_of_run {k : Nat} {s t u : State} (hrun : core.run k s = .next t) (hstep : step t = .next u) :
    core.run (k + 1) s = .next u :=
  (run_add hrun).trans (run_succ_of_next hstep)

/-- A `PADP.TXSTEP` that writes the last fragment, then `k` ticks, fewer than end the send. -/
theorem run_txstep_ticks {s : State} (hv : s.cfg.Valid) (hopen : s.closed = false) (hs : s.txState = .sending)
    (hack : s.txAckreq = true) (hlast : s.currentFragment.last = true) (k : Nat)
    (hk : k < (1 + s.cfg.padpMaxRetries) * s.cfg.padpAckTimeout) (rest : Bytes) :
    core.run (1 + k) { s with trace := 0x42 :: (List.replicate k 0x41 ++ rest) } =
      .next { s.waitedFor k with trace := rest } := by
  induction k generalizing rest with
  | zero =>
    have hstep := step_of_txstep (s := { s with trace := 0x42 :: rest }) hv hopen hs rfl
    have hbegin := txstepEffect_eq_waitedFor (s := { s with trace := rest }) hack hlast
    exact run_succ_of_run (run_zero _) (hstep.trans (congrArg _ hbegin))
  | succ k ih =>
    have hstep := step_of_tick (s := { s.waitedFor k with trace := 0x41 :: rest }) hv rfl
    have htick := tickEffect_waitedFor (s := { s with trace := rest }) hv hopen hk
    rw [List.replicate_succ', List.append_assoc]
    exact run_succ_of_run (ih (by omega) ([0x41] ++ rest)) (hstep.trans (congrArg _ htick))

/-! ### A send that is carried out (43_padp_send.md R191 to R195) -/

/-- The frames of a message, one for each fragment. -/
theorem messageFrames_length (c : Config) (txid : Byte) (ackreq : Bool) (payload : Bytes) :
    (messageFrames c txid ackreq payload).length = fragmentCount c.padpFragSize payload.length := by
  simp [messageFrames]

/-- The frames still to be sent at fragment `i` begin with the frame written at its offset (R191 to R193). -/
theorem messageFrames_drop {s : State} {i : Nat} (hv : s.cfg.Valid) (hoff : s.txOff = i * s.cfg.padpFragSize)
    (hi : i < fragmentCount s.cfg.padpFragSize s.txBuf.length) :
    ((messageFrames s.cfg s.txTxid s.txAckreq s.txBuf).drop i).map OutEvent.txBytes =
      s.currentFrame :: ((messageFrames s.cfg s.txTxid s.txAckreq s.txBuf).drop (i + 1)).map .txBytes := by
  obtain ⟨hF, -⟩ := hv
  rw [List.drop_eq_getElem_cons (by rwa [messageFrames_length]), List.map_cons, State.currentFrame, currentFragment_eq,
    hoff, frag_body_eq_messageFragment s.txAckreq hF hi]
  simp only [messageFrames, List.getElem_map, List.getElem_range]
  rfl

/-- The fragment at offset `i * F` of the message being sent is the last where the count says so. -/
theorem currentFragment_last_eq {s : State} {i : Nat} (hv : s.cfg.Valid) (hoff : s.txOff = i * s.cfg.padpFragSize)
    (hi : i < fragmentCount s.cfg.padpFragSize s.txBuf.length) :
    s.currentFragment.last = decide (i + 1 = fragmentCount s.cfg.padpFragSize s.txBuf.length) := by
  obtain ⟨hF, -⟩ := hv
  rw [currentFragment_eq, hoff]
  exact frag_last_eq s.txAckreq hF hi

/-- From fragment `i` of a message a `PADP.TXSTEP` for each fragment left writes the frames left, in order, and the send
then waits or ends (R193 to R195). -/
theorem run_txsteps {s : State} {i m : Nat} (hv : s.cfg.Valid) (hopen : s.closed = false) (hs : s.txState = .sending)
    (hoff : s.txOff = i * s.cfg.padpFragSize) (hleft : i + (m + 1) = fragmentCount s.cfg.padpFragSize s.txBuf.length)
    (htrace : s.trace = List.replicate (m + 1) 0x42) :
    ∃ b : State, core.run (m + 1) s = .next b ∧ b.txState = (if s.txAckreq = true then .waitAck else .idle) ∧
      b.out = s.out ++ ((messageFrames s.cfg s.txTxid s.txAckreq s.txBuf).drop i).map .txBytes ++
        (if s.txAckreq = true then [] else [.padpTxDone .ok]) := by
  induction m generalizing s i with
  | zero =>
    have hlast := currentFragment_last_eq hv hoff (by omega)
    have hend := txstepEffect_of_last (s := { s with trace := [], reply := none }) (hlast.trans (decide_eq_true hleft))
    rw [messageFrames_drop hv hoff (by omega), List.drop_of_length_le (by rw [messageFrames_length]; omega)]
    refine ⟨_, run_succ_of_run (run_zero s) ((step_of_txstep hv hopen hs htrace).trans (congrArg _ hend)), ?_⟩
    split_ifs
    · exact ⟨rfl, (List.append_nil _).symm⟩
    · exact ⟨rfl, rfl⟩
  | succ m ih =>
    have hlast := currentFragment_last_eq hv hoff (by omega)
    have hmore := txstepEffect_of_more (s := { s with trace := List.replicate (m + 1) 0x42, reply := none })
      (hlast.trans (decide_eq_false (by omega)))
    obtain ⟨b, hrun, hstate, hout⟩ := ih (i := i + 1) (s := { s.writeFragment with
        txOff := s.txOff + s.cfg.padpFragSize, trace := List.replicate (m + 1) 0x42, reply := none }) hv hopen hs
      ((congrArg (· + _) hoff).trans (Nat.succ_mul _ _).symm) ((Nat.succ_add_eq_add_succ i (m + 1)).trans hleft) rfl
    have hstep := (step_of_txstep hv hopen hs htrace).trans (congrArg _ hmore)
    refine ⟨b, (run_succ_of_next hstep).trans hrun, hstate, ?_⟩
    rw [messageFrames_drop hv hoff (by omega), List.append_cons]
    exact hout

end Sys2Proof.Machine

namespace Sys2Proof

open Machine

/-! ### The PADP sender (43_padp_send.md R190 to R202) -/

/-- Settles O30: the payload ends within fragment `i` exactly when it is the last, and the pieces of `F` bytes reach to
the end of the payload. -/
theorem fragmentsCutThePayload : Obligations.FragmentsCutThePayload := by
  intro fragSize payload ackreq hF _ n
  refine ⟨fun i hi => ?_, ?_⟩
  · have hlast := frag_last_eq ackreq hF hi
    have hcount := frag_count_eq fragSize payload ackreq (i * fragSize)
    refine ⟨frag_body_eq_messageFragment ackreq hF hi, hlast, hcount, fun hmore => ?_, fun hne => ?_⟩
    · exact frag_count_of_not_last (hlast.trans (decide_eq_false hmore.ne))
    · have hoff := (fragment_offset hF hi).1 (List.length_pos_iff.mpr hne)
      omega
  · obtain ⟨-, hcover, -⟩ := fragmentCount_bounds (len := payload.length) hF
    simp only [messageFragment_drop_header, flatMap_pieces_eq_take]
    exact List.take_of_length_le hcover

/-- Settles O34: a step that enters the wait has written the fragment at `tx_off`, which the wait keeps, and the tick
writes the fragment at `tx_off`. -/
theorem retransmissionIsByteIdentical : Obligations.RetransmissionIsByteIdentical := by
  intro s t r out hexec hwait hr
  obtain ⟨hv, rfl, he⟩ := exec_eq_next hexec
  obtain ⟨hopen, hs⟩ : s.closed = false ∧ s.txState = .sending := by simpa [State.txstepEnabled] using he rfl
  have heq := txstepEffect_of_waits (s := { s with reply := none }) hs hwait
  rw [effectOf, heq] at hr ⊢
  refine ⟨_, rfl, ?_⟩
  exact (exec_of_valid (i := .tick) (by exact hv) nofun).trans
    (congrArg _ (tickEffect_of_retry (by exact hopen) rfl le_rfl hr))

/-- Settles O35: the step that writes the last fragment begins the wait, each tick but the last keeps its form, and the
last ends the send. -/
theorem unacknowledgedSendTimesOut : Obligations.UnacknowledgedSendTimesOut := by
  intro s k hv hopen hs hack hend total f frame
  obtain ⟨-, -, -, -, hT, -⟩ := id hv
  have hlast : s.currentFragment.last = true := (frag_last_iff _ _ _ _).mpr hend
  have hrun := run_txstep_ticks hv hopen hs hack hlast
  refine ⟨fun hk => ?_, ?_⟩
  · have h := hrun k hk []
    rw [List.append_nil] at h
    exact ⟨_, h, rfl, rfl⟩
  · rintro rfl
    obtain ⟨j, hj⟩ : ∃ j, total = j + 1 := Nat.exists_eq_add_of_le' (Nat.mul_pos (by omega) hT)
    obtain ⟨htick, hcount⟩ := tickEffect_waitedFor_last (s := { s with trace := [] }) hv hopen hj.symm
    rw [hj, List.replicate_succ', ← hcount]
    have hstep := step_of_tick (s := { s.waitedFor j with trace := [0x41] }) (rest := []) hv rfl
    exact ⟨_, run_succ_of_run (hrun j (by omega) [0x41]) (hstep.trans (congrArg _ htick)), rfl, rfl⟩

/-- Settles O37: from the first fragment on, each step writes the next frame, and the last one ends the sending. -/
theorem sendWritesAllFragments : Obligations.SendWritesAllFragments := by
  intro txid opts payload s a hopen hexec hok n frames
  obtain ⟨hv, rfl⟩ := exec_padpSend_ok hexec hok
  obtain ⟨m, hm⟩ : ∃ m, n = m + 1 := Nat.exists_eq_add_of_le' (fragmentCount_bounds hv.1).1
  refine ⟨messageFrames_length .., ?_⟩
  rw [hm]
  exact run_txsteps (i := 0) (by exact hv) hopen rfl (Nat.zero_mul _).symm ((Nat.zero_add _).trans hm.symm) rfl

/-- Settles O29: the record is the encoding of `PADP.SEND` over the two length bytes, and under a legal configuration
the command answers its effect, the four tests in order. -/
theorem padpSendOutcomes : Obligations.PadpSendOutcomes := by
  refine ⟨fun txid opts hi lo payload hlen => ?_, fun txid opts payload s hv => ?_⟩
  · refine decode_of_encode_eq ((bodyFits_iff _).mpr (length_le_of_toNat hlen)) rfl ?_
    rw [encode, encodeSized_eq_of_toNat hlen]
    rfl
  · simp only [← optsReserved_iff]
    exact exec_of_valid hv nofun

/-- Settles O31: where it is enabled the step answers its effect, in the three cases of the rule. -/
theorem txstepWritesOneFragment : Obligations.TxstepWritesOneFragment := by
  refine ⟨rfl, fun s hv hopen hs => ?_⟩
  intro f frame
  refine (exec_of_valid hv (fun _ => by simp [State.txstepEnabled, hopen, hs])).trans (congrArg _ ?_)
  split_ifs with hmore hack
  · exact (txstepEffect_eq _).trans (if_pos hmore)
  · exact (txstepEffect_of_last (s := { s with reply := none }) (eq_true_of_ne_false hmore)).trans (if_pos hack)
  · rw [List.append_cons]
    exact (txstepEffect_of_last (s := { s with reply := none }) (eq_true_of_ne_false hmore)).trans (if_neg hack)

/-- Settles O32: outside an open `TX_SENDING` the step is not enabled. -/
theorem txstepRefusedWhereNotEnabled : Obligations.TxstepRefusedWhereNotEnabled := fun s hv h =>
  exec_padpTxstep_of_not_enabled hv (by simpa [State.txstepEnabled] using h)

/-- Settles O33: a tick in the wait lets the timer run, writes the fragment again or ends the send; any other tick does
nothing. -/
theorem tickOutcomes : Obligations.TickOutcomes := by
  refine ⟨rfl, fun s hv _ => ?_⟩
  intro f frame
  refine (exec_of_valid (i := .tick) hv nofun).trans (congrArg _ ?_)
  split_ifs with hskip hrun hretry
  · exact (tickEffect_eq _).trans (if_pos hskip)
  all_goals obtain ⟨hopen, hwait⟩ : s.closed = false ∧ s.txState = .waitAck := by simpa using hskip
  · exact tickEffect_of_running (by exact hopen) (by exact hwait) hrun
  · exact tickEffect_of_retry (by exact hopen) (by exact hwait) (not_lt.mp hrun) hretry
  · exact tickEffect_of_timeout (by exact hopen) (by exact hwait) (not_lt.mp hrun) (not_lt.mp hretry)

/-- Settles O36: the tag bits name the row, and only a matching acknowledgement in an open LE has an effect. -/
theorem ackOutcomes : Obligations.AckOutcomes := by
  refine ⟨fun txid flags hi lo data htag => ?_, fun txid rsv size data s hv => ?_⟩
  · show decodeFragment txid (flags :: hi :: lo :: data) = _
    rw [decodeFragment, fragmentOfFlags, htag]
    rfl
  · exact (exec_of_valid (i := .padpAck txid rsv size data) hv nofun).trans
      (congrArg _ (received_ackInput txid { s with reply := none }))

end Sys2Proof

namespace Sys2Proof.Machine

/-! ### The outcomes of a fragment (44_padp_recv.md R222 to R229) -/

/-- The tests of the rule for a first fragment, as one (R223). -/
theorem dataFirst_eq (txid : Byte) (size : Nat) (data : Bytes) (s : State) :
    dataFirst txid size data s =
      if s.rxState = .assembling ∨ s.cfg.padpMaxPayload < size ∨ size ≤ data.length then s.protocolError
      else { s with rxState := .assembling, rxTxid := txid, rxTotal := size, rxBuf := data } := by
  simp only [dataFirst, ite_or]

/-- The tests of the rule for an only fragment, as one (R224). -/
theorem dataOnly_eq (txid : Byte) (ack : Bool) (size : Nat) (data : Bytes) (s : State) :
    dataOnly txid ack size data s =
      if s.rxState = .assembling ∨ s.cfg.padpMaxPayload < size ∨ data.length ≠ size then s.protocolError
      else complete txid ack data s := by
  simp only [dataOnly, ite_or]

/-- The tests of the rule for a middle fragment, as one (R225). -/
theorem dataMid_eq (txid : Byte) (size : Nat) (data : Bytes) (s : State) :
    dataMid txid size data s =
      if s.rxState = .idle ∨ txid ≠ s.rxTxid ∨ size ≠ s.rxBuf.length ∨ s.rxTotal ≤ s.rxBuf.length + data.length then
        s.protocolError
      else { s with rxBuf := s.rxBuf ++ data } := by
  simp only [dataMid, ite_or]

/-- The tests of the rule for a last fragment, as one (R226). -/
theorem dataLast_eq (txid : Byte) (ack : Bool) (size : Nat) (data : Bytes) (s : State) :
    dataLast txid ack size data s =
      if s.rxState = .idle ∨ txid ≠ s.rxTxid ∨ size ≠ s.rxBuf.length ∨ s.rxBuf.length + data.length ≠ s.rxTotal then
        s.protocolError
      else complete txid ack (s.rxBuf ++ data) s := by
  simp only [dataLast, ite_or]

/-- A completed message, as the statements write it (R227). -/
theorem complete_eq_afterMessage (txid : Byte) (ack : Bool) (payload : Bytes) (s : State) :
    complete txid ack payload { s with reply := none } = afterMessage txid ack payload s := by
  rw [complete_eq, afterMessage, List.append_assoc]
  rfl

/-- Dispatch by the three tag bits (R222). -/
theorem dispatchFragment_eq (txid : Byte) (first last ack : Bool) (size : Nat) (data : Bytes) (s : State) :
    dispatchFragment txid first last ack size data s =
      match first, last, ack with
      | true, false, false => dataFirst txid size data s
      | true, true, ack => dataOnly txid ack size data s
      | false, false, false => dataMid txid size data s
      | false, true, ack => dataLast txid ack size data s
      | false, false, true => ackInput txid s
      | true, false, true => s.protocolError := by
  cases first <;> cases last <;> cases ack <;> rfl

/-- In an open LE a fragment's row has the effect its flags dispatch to (R222). -/
theorem effectOf_fragmentOfFlags {s : State} (hopen : s.closed = false) (txid flags : Byte) (size : Word16)
    (data : Bytes) :
    effectOf (fragmentOfFlags txid flags size data) s =
      dispatchFragment txid (flagFirst flags) (flagLast flags) (flagAck flags) size.toNat data s := by
  rw [fragmentOfFlags_eq, dispatchFragment_eq]
  cases flagFirst flags <;> cases flagLast flags <;> cases flagAck flags <;> exact received_of_open hopen _

/-- The tag bits by `flags & 0xE0` (R102). -/
theorem flags_of_tag : ∀ (flags : Byte) (first last ack : Bool), flags &&& 0xE0 = mkFlags first last ack 0 →
    flagFirst flags = first ∧ flagLast flags = last ∧ flagAck flags = ack := by
  decide +kernel

/-- `FIRST` and `LAST` by `flags & 0xC0` (R224, R226). -/
theorem flags_of_kind : ∀ (flags : Byte) (first last : Bool), flags &&& 0xC0 = mkFlags first last false 0 →
    flagFirst flags = first ∧ flagLast flags = last := by
  decide +kernel

/-- A fragment row answers its effect under a legal configuration (R10). -/
theorem exec_of_fragment {i : Instr} {txid : Byte} {s : State} (hv : s.cfg.Valid) (hspace : i.space = .fragment txid) :
    exec i s = .next (effectOf i { s with reply := none }) :=
  exec_of_valid hv fun h => by subst h; cases hspace

/-! ### What a fragment leaves alone (44_padp_recv.md R234) -/

/-- The sender's registers are the same in both states. -/
def SameSender (s t : State) : Prop :=
  t.txState = s.txState ∧ t.txTxid = s.txTxid ∧ t.txAckreq = s.txAckreq ∧ t.txBuf = s.txBuf ∧ t.txOff = s.txOff ∧
    t.txTimer = s.txTimer ∧ t.txRetries = s.txRetries

theorem protocolError_sameSender (s : State) : SameSender s s.protocolError := ⟨rfl, rfl, rfl, rfl, rfl, rfl, rfl⟩

theorem complete_sameSender (txid : Byte) (ack : Bool) (payload : Bytes) (s : State) :
    SameSender s (complete txid ack payload s) := by
  rw [complete_eq]
  exact ⟨rfl, rfl, rfl, rfl, rfl, rfl, rfl⟩

theorem dataFirst_sameSender (txid : Byte) (size : Nat) (data : Bytes) (s : State) :
    SameSender s (dataFirst txid size data s) := by
  rw [dataFirst_eq]
  split_ifs
  · exact protocolError_sameSender s
  · exact ⟨rfl, rfl, rfl, rfl, rfl, rfl, rfl⟩

theorem dataOnly_sameSender (txid : Byte) (ack : Bool) (size : Nat) (data : Bytes) (s : State) :
    SameSender s (dataOnly txid ack size data s) := by
  rw [dataOnly_eq]
  split_ifs
  · exact protocolError_sameSender s
  · exact complete_sameSender txid ack data s

theorem dataMid_sameSender (txid : Byte) (size : Nat) (data : Bytes) (s : State) :
    SameSender s (dataMid txid size data s) := by
  rw [dataMid_eq]
  split_ifs
  · exact protocolError_sameSender s
  · exact ⟨rfl, rfl, rfl, rfl, rfl, rfl, rfl⟩

theorem dataLast_sameSender (txid : Byte) (ack : Bool) (size : Nat) (data : Bytes) (s : State) :
    SameSender s (dataLast txid ack size data s) := by
  rw [dataLast_eq]
  split_ifs
  · exact protocolError_sameSender s
  · exact complete_sameSender txid ack _ s

theorem received_sameSender {s : State} {f : State → State} (h : SameSender s (f s)) :
    SameSender s (s.received f) := by
  unfold State.received
  split
  · exact ⟨rfl, rfl, rfl, rfl, rfl, rfl, rfl⟩
  · exact h

/-- A fragment row that is no acknowledgement leaves the sender alone, whatever its outcome (R234). -/
theorem effectOf_sameSender {i : Instr} {txid : Byte} (hspace : i.space = .fragment txid)
    (hne : ∀ rsv size data, i ≠ .padpAck txid rsv size data) (s : State) : SameSender s (effectOf i s) := by
  cases i with
  | padpDataFirst _ _ size data => exact received_sameSender (dataFirst_sameSender _ size.toNat data s)
  | padpDataOnly _ ack _ size data => exact received_sameSender (dataOnly_sameSender _ ack size.toNat data s)
  | padpDataMid _ _ size data => exact received_sameSender (dataMid_sameSender _ size.toNat data s)
  | padpDataLast _ ack _ size data => exact received_sameSender (dataLast_sameSender _ ack size.toNat data s)
  | padpAck _ rsv size data => cases hspace; exact absurd rfl (hne rsv size data)
  | padpIllegal => exact received_sameSender (protocolError_sameSender s)
  | _ => cases hspace

/-! ### Admission (44_padp_recv.md R220, R221) -/

/-- A frame of another type or source is not admitted (R220). -/
theorem padpInput_of_other {p : Packet} {s : State}
    (h : p.type ≠ s.cfg.slpTypePadp ∨ p.src ≠ s.cfg.padpRemoteSocket) : padpInput p s = s := by
  unfold padpInput
  split_ifs with htype hsrc
  · rfl
  · rfl
  · exact (h.elim htype hsrc).elim

/-- A body too short for a header is a ProtocolError (R221). -/
theorem padpInput_of_short {p : Packet} {s : State} (htype : p.type = s.cfg.slpTypePadp)
    (hsrc : p.src = s.cfg.padpRemoteSocket) (h : p.body.length < 3) : padpInput p s = s.protocolError := by
  rw [padpInput, if_neg (not_not.mpr htype), if_neg (not_not.mpr hsrc), parseFragment, if_pos h]

/-! ### A message received whole (44_padp_recv.md R223 to R227, R235) -/

/-- The receiver in the middle of a message (R33 to R36). -/
def State.assembling (s : State) (txid : Byte) (total : Nat) (buf : Bytes) : State :=
  { s with rxState := .assembling, rxTxid := txid, rxTotal := total, rxBuf := buf }

/-- A first fragment that passes every test of its rule (R223). -/
theorem dataFirst_of_fits {s : State} {size : Nat} {data : Bytes} (hidle : s.rxState = .idle)
    (hroom : size ≤ s.cfg.padpMaxPayload) (hmore : data.length < size) (txid : Byte) :
    dataFirst txid size data s = s.assembling txid size data := by
  rw [dataFirst_eq, if_neg (by simp [hidle, hroom, hmore])]
  rfl

/-- An only fragment that passes every test of its rule (R224). -/
theorem dataOnly_of_fits {s : State} {size : Nat} {data : Bytes} (hidle : s.rxState = .idle)
    (hroom : size ≤ s.cfg.padpMaxPayload) (hsize : data.length = size) (txid : Byte) (ack : Bool) :
    dataOnly txid ack size data s = complete txid ack data s := by
  rw [dataOnly_eq, if_neg (by simp [hidle, hroom, hsize])]

/-- A middle fragment that passes every test of its rule (R225). -/
theorem dataMid_of_fits {size total : Nat} {buf data : Bytes} (hoff : size = buf.length)
    (hmore : buf.length + data.length < total) (txid : Byte) (s : State) :
    dataMid txid size data (s.assembling txid total buf) = s.assembling txid total (buf ++ data) := by
  rw [dataMid_eq, if_neg (by simp [State.assembling, hoff, hmore])]
  rfl

/-- A last fragment that passes every test of its rule (R226). -/
theorem dataLast_of_fits {size total : Nat} {buf data : Bytes} (hoff : size = buf.length)
    (htotal : buf.length + data.length = total) (txid : Byte) (ack : Bool) (s : State) :
    dataLast txid ack size data (s.assembling txid total buf) = complete txid ack (buf ++ data) s := by
  rw [dataLast_eq, if_neg (by simp [State.assembling, hoff, htotal]), complete_eq, complete_eq]
  rfl

/-- The receiver when the first `o` bytes of a payload have arrived: untouched before the first fragment, assembling
behind it (R223, R225). -/
def State.partway (r : State) (txid : Byte) (payload : Bytes) (o : Nat) : State :=
  if o = 0 then r else r.assembling txid payload.length (payload.take o)

theorem partway_zero (r : State) (txid : Byte) (payload : Bytes) : r.partway txid payload 0 = r := if_pos rfl

theorem partway_of_ne_zero {o : Nat} (h : o ≠ 0) (r : State) (txid : Byte) (payload : Bytes) :
    r.partway txid payload o = r.assembling txid payload.length (payload.take o) := if_neg h

@[simp] theorem partway_cfg (r : State) (txid : Byte) (payload : Bytes) (o : Nat) :
    (r.partway txid payload o).cfg = r.cfg := by
  unfold State.partway
  split <;> rfl

@[simp] theorem partway_win (r : State) (txid : Byte) (payload : Bytes) (o : Nat) :
    (r.partway txid payload o).win = r.win := by
  unfold State.partway
  split <;> rfl

@[simp] theorem partway_closed (r : State) (txid : Byte) (payload : Bytes) (o : Nat) :
    (r.partway txid payload o).closed = r.closed := by
  unfold State.partway
  split <;> rfl

section Room

variable {r : State} {fragSize o : Nat} {payload : Bytes} (hidle : r.rxState = .idle)
  (hroom : payload.length ≤ r.cfg.padpMaxPayload)
include hidle hroom

/-- A fragment before the last is taken at its offset: it opens the reassembly or is appended (R223, R225). -/
theorem dispatchFragment_of_more (hF : 1 ≤ fragSize) (hmore : o + fragSize < payload.length) (txid : Byte) :
    dispatchFragment txid (o == 0) false false (if o = 0 then payload.length else o) ((payload.drop o).take fragSize)
        (r.partway txid payload o) = r.partway txid payload (o + fragSize) := by
  rw [partway_of_ne_zero (o := o + fragSize) (by omega)]
  rcases Nat.eq_zero_or_pos o with rfl | hpos
  · rw [Nat.zero_add]
    exact dataFirst_of_fits hidle hroom ((List.length_take_le _ _).trans_lt (by omega)) txid
  · have hne : o ≠ 0 := hpos.ne'
    have hoff : o = (payload.take o).length := (List.length_take_of_le (by omega)).symm
    have hincomplete : (payload.take o).length + ((payload.drop o).take fragSize).length < payload.length := by
      have := List.length_take_le fragSize (payload.drop o)
      omega
    rw [partway_of_ne_zero hne, if_neg hne, beq_false_of_ne hne, List.take_add]
    exact dataMid_of_fits hoff hincomplete txid r

/-- The last fragment completes the message with the whole payload (R224, R226). -/
theorem dispatchFragment_of_last (hlast : payload.length ≤ o + fragSize) (hoff : o = 0 ∨ o < payload.length)
    (txid : Byte) (ack : Bool) :
    dispatchFragment txid (o == 0) true ack (if o = 0 then payload.length else o) ((payload.drop o).take fragSize)
        (r.partway txid payload o) = complete txid ack payload r := by
  have hwhole : payload.take o ++ (payload.drop o).take fragSize = payload := by
    rw [← List.take_add, List.take_of_length_le hlast]
  rcases Nat.eq_zero_or_pos o with rfl | hpos
  · rw [List.take_zero, List.nil_append] at hwhole
    rw [partway_zero, hwhole, dispatchFragment_eq]
    exact dataOnly_of_fits hidle hroom rfl txid ack
  · have hne : o ≠ 0 := hpos.ne'
    have hsize : o = (payload.take o).length := (List.length_take_of_le (by omega)).symm
    have htotal : (payload.take o).length + ((payload.drop o).take fragSize).length = payload.length := by
      rw [← List.length_append, hwhole]
    rw [partway_of_ne_zero hne, if_neg hne, beq_false_of_ne hne, dispatchFragment_eq]
    exact (dataLast_of_fits hsize htotal txid ack r).trans (by rw [hwhole])

end Room

/-! ### The frames of a message on the channel (44_padp_recv.md R235) -/

/-- Two configurations for the two ends of one channel: the sockets exchanged, the packet type the same (R235). -/
structure Opposite (c d : Config) : Prop where
  localSocket : d.padpLocalSocket = c.padpRemoteSocket
  remoteSocket : d.padpRemoteSocket = c.padpLocalSocket
  packetType : d.slpTypePadp = c.slpTypePadp

theorem Opposite.symm {c d : Config} (h : Opposite c d) : Opposite d c :=
  ⟨h.remoteSocket.symm, h.localSocket.symm, h.packetType.symm⟩

/-- A fragment written at one end of a channel is addressed to the other (R192, R220). -/
theorem Opposite.padpPacket_eq {c d : Config} (h : Opposite c d) (txid : Byte) (body : Bytes) :
    padpPacket c txid body = ⟨d.padpLocalSocket, d.padpRemoteSocket, d.slpTypePadp, txid, body⟩ := by
  rw [padpPacket, h.localSocket, h.remoteSocket, h.packetType]

/-- A fragment from the other end of the channel that arrives in an empty window of an open LE is dispatched by its tag
bits (R154, R222). -/
theorem feed_fragment {c : Config} {s : State} (hchannel : Opposite c s.cfg) (hv : s.cfg.Valid) (hwin : s.win = [])
    (hopen : s.closed = false) {data : Bytes} (hdata : 3 + data.length ≤ s.cfg.slpMaxBody) (txid : Byte)
    (first last ack : Bool) (size : Word16) :
    feed (slpEncode (padpPacket c txid (mkFragment (mkFlags first last ack 0) size data))) s =
      dispatchFragment txid first last ack size.toNat data s := by
  obtain ⟨-, -, hmax, -, -, hlocal⟩ := hv
  obtain ⟨hfirst, hlast, hack, -⟩ := mkFlags_fields first last ack 0
  rw [hchannel.padpPacket_eq, feed_frame_eq hwin hopen hmax _ (by rwa [mkFragment_length]), deliver_of_channel hlocal,
    hfirst, hlast, hack]

/-- The packet of fragment `i` of a message (R191, R192). -/
def messagePacket (c : Config) (txid : Byte) (ackreq : Bool) (payload : Bytes) (i : Nat) : Packet :=
  padpPacket c txid
    (messageFragment c.padpFragSize (fragmentCount c.padpFragSize payload.length) payload ackreq i)

theorem messageFrames_eq_map (c : Config) (txid : Byte) (ackreq : Bool) (payload : Bytes) :
    messageFrames c txid ackreq payload =
      (List.range (fragmentCount c.padpFragSize payload.length)).map
        fun i => slpEncode (messagePacket c txid ackreq payload i) := rfl

/-- The first fragment is at offset 0, any other within the payload (R191). -/
theorem fragment_offset_cases {fragSize len i : Nat} (h : 1 ≤ fragSize) (hi : i < fragmentCount fragSize len) :
    i * fragSize = 0 ∨ i * fragSize < len := by
  rcases Nat.eq_zero_or_pos len with rfl | hpos
  · rw [fragmentCount_zero h, Nat.lt_one_iff] at hi
    exact .inl (by rw [hi, Nat.zero_mul])
  · exact .inr ((fragment_offset h hi).1 hpos)

/-- Fragment `i` of a message by its tag bits, its size field and its data (R191). -/
theorem messageFragment_eq_mkFragment {fragSize i : Nat} {payload : Bytes} {last : Bool} (ackreq : Bool)
    (h : 1 ≤ fragSize) (hi : i < fragmentCount fragSize payload.length)
    (hlast : decide (i + 1 = fragmentCount fragSize payload.length) = last) :
    messageFragment fragSize (fragmentCount fragSize payload.length) payload ackreq i =
      mkFragment (mkFlags (i * fragSize == 0) last (last && ackreq) 0)
        (BitVec.ofNat 16 (if i * fragSize = 0 then payload.length else i * fragSize))
        ((payload.drop (i * fragSize)).take fragSize) := by
  rw [← frag_body_eq_messageFragment ackreq h hi, frag_body_eq ((frag_last_eq ackreq h hi).trans hlast)]

/-- An open, idle LE at the other end of the channel of `c`, with room for `len` bytes of payload (R235). -/
structure PeerOf (c : Config) (len : Nat) (r : State) : Prop where
  valid : r.cfg.Valid
  channel : Opposite c r.cfg
  maxBody : c.slpMaxBody ≤ r.cfg.slpMaxBody
  room : len ≤ r.cfg.padpMaxPayload
  idle : r.rxState = .idle
  win : r.win = []
  isOpen : r.closed = false

section Peer

variable {c : Config} {payload : Bytes} {r : State} (hc : c.Valid) (hr : PeerOf c payload.length r)
include hc hr

/-- Fragment `i` of a message, fed to the peer that has received those before it, is dispatched by its tag
bits, its offset and its data. -/
theorem feed_messagePacket_eq_dispatch (txid : Byte) (ackreq : Bool) {i : Nat} {last : Bool}
    (hi : i < fragmentCount c.padpFragSize payload.length)
    (hlast : decide (i + 1 = fragmentCount c.padpFragSize payload.length) = last) :
    feed (slpEncode (messagePacket c txid ackreq payload i)) (r.partway txid payload (i * c.padpFragSize)) =
      dispatchFragment txid (i * c.padpFragSize == 0) last (last && ackreq)
        (if i * c.padpFragSize = 0 then payload.length else i * c.padpFragSize)
        ((payload.drop (i * c.padpFragSize)).take c.padpFragSize) (r.partway txid payload (i * c.padpFragSize)) := by
  obtain ⟨hF, hbody, -⟩ := hc
  obtain ⟨hv, hchannel, hmaxBody, hroom, -, hwin, hopen⟩ := hr
  obtain ⟨-, -, -, hmax, -⟩ := id hv
  have hsize : (if i * c.padpFragSize = 0 then payload.length else i * c.padpFragSize) ≤ 65535 := by
    have hoff := fragment_offset_cases hF hi
    split <;> omega
  have hdata : 3 + ((payload.drop (i * c.padpFragSize)).take c.padpFragSize).length ≤ r.cfg.slpMaxBody :=
    (Nat.add_le_add_left (List.length_take_le _ _) 3).trans (hbody.trans hmaxBody)
  rw [messagePacket, messageFragment_eq_mkFragment ackreq hF hi hlast,
    feed_fragment (by rwa [partway_cfg]) (by rwa [partway_cfg]) (by rwa [partway_win]) (by rwa [partway_closed])
      (by rwa [partway_cfg]), toNat_ofNat16 hsize]

/-- Fragment `i` of a message, fed to the peer that has received those before it, brings it to the next
offset, the last one to the end of the message. -/
theorem feed_messagePacket (txid : Byte) (ackreq : Bool) {i : Nat}
    (hi : i < fragmentCount c.padpFragSize payload.length) :
    feed (slpEncode (messagePacket c txid ackreq payload i)) (r.partway txid payload (i * c.padpFragSize)) =
      if i + 1 = fragmentCount c.padpFragSize payload.length then complete txid ackreq payload r
      else r.partway txid payload ((i + 1) * c.padpFragSize) := by
  obtain ⟨hF, -⟩ := id hc
  have hend := (fragment_offset hF hi).2
  by_cases hlast : i + 1 = fragmentCount c.padpFragSize payload.length
  · rw [if_pos hlast, feed_messagePacket_eq_dispatch hc hr txid ackreq hi (decide_eq_true hlast)]
    exact dispatchFragment_of_last hr.idle hr.room (hend.mpr hlast) (fragment_offset_cases hF hi) txid ackreq
  · rw [if_neg hlast, feed_messagePacket_eq_dispatch hc hr txid ackreq hi (decide_eq_false hlast), Nat.succ_mul]
    exact dispatchFragment_of_more hr.idle hr.room hF (not_le.mp (mt hend.mp hlast)) txid

/-- The frames before the last bring the peer to the offset of the next one. -/
theorem feed_messagePackets (txid : Byte) (ackreq : Bool) {k : Nat}
    (hk : k < fragmentCount c.padpFragSize payload.length) :
    feed ((List.range k).map fun i => slpEncode (messagePacket c txid ackreq payload i)).flatten r =
      r.partway txid payload (k * c.padpFragSize) := by
  induction k with
  | zero => rw [Nat.zero_mul, partway_zero]; rfl
  | succ k ih =>
    rw [List.range_succ, List.map_append, List.flatten_append, feed_append, ih (by omega), List.map_singleton,
      List.flatten_singleton, feed_messagePacket hc hr txid ackreq (by omega), if_neg (by omega)]

/-- All frames of a message complete it. -/
theorem feed_messageFrames (txid : Byte) (ackreq : Bool) :
    feed (messageFrames c txid ackreq payload).flatten r = complete txid ackreq payload r := by
  obtain ⟨m, hm⟩ := Nat.exists_eq_add_of_le' (fragmentCount_bounds (len := payload.length) hc.1).1
  rw [messageFrames_eq_map, hm, List.range_succ, List.map_append, List.flatten_append, feed_append,
    feed_messagePackets hc hr txid ackreq (by omega), List.map_singleton, List.flatten_singleton,
    feed_messagePacket hc hr txid ackreq (by omega), if_pos hm.symm]

end Peer

/-- A cleared receiver that completes a message is left as it was, but for the outputs (R227, R34 to R36). -/
theorem complete_of_cleared {s : State} (hstate : s.rxState = .idle) (htxid : s.rxTxid = 0x00) (htotal : s.rxTotal = 0)
    (hbuf : s.rxBuf = []) (txid : Byte) (ack : Bool) (payload : Bytes) :
    complete txid ack payload s =
      { s with out := s.out ++ .padpRxMsg txid payload ::
                 (if ack then [.txBytes (slpEncode (padpPacket s.cfg txid ackBody))] else []) } := by
  rw [complete_eq]
  congr 1
  · exact hstate.symm
  · exact htxid.symm
  · exact htotal.symm
  · exact hbuf.symm

/-- The acknowledgement from the other end of the channel ends the send that waits for it (R196). -/
theorem feed_ack {c : Config} {s : State} (hchannel : Opposite c s.cfg) (hv : s.cfg.Valid) (hwin : s.win = [])
    (hopen : s.closed = false) (hwait : s.txState = .waitAck) :
    feed (slpEncode (padpPacket c s.txTxid ackBody)) s = s.endSend .ok := by
  obtain ⟨-, hbody, -⟩ := id hv
  have hroom : 3 + ([] : Bytes).length ≤ s.cfg.slpMaxBody := (Nat.le_add_right 3 _).trans hbody
  refine (feed_fragment hchannel hv hwin hopen hroom s.txTxid false false true 0).trans ?_
  rw [dispatchFragment_eq]
  exact if_pos ⟨hwait, rfl⟩

end Sys2Proof.Machine

namespace Sys2Proof

open Machine

/-! ### The PADP receiver (44_padp_recv.md R220 to R235) -/

/-- Settles O45: the frames before the last bring the peer to the last offset, the last one completes the message, and
the acknowledgement the peer then writes is the one the sender waits for. -/
theorem messageRoundTrip : Obligations.MessageRoundTrip := by
  intro c txid ackreq payload r hc hv hlocal hremote htype hmaxBody _ hroom hidle htxid htotal hbuf hwin hopen ack
  have hchannel : Opposite c r.cfg := ⟨hlocal, hremote, htype⟩
  have hack : ack = slpEncode (padpPacket r.cfg txid ackBody) :=
    congrArg slpEncode (hchannel.symm.padpPacket_eq txid ackBody).symm
  rw [hack]
  refine ⟨?_, ?_⟩
  · rw [feed_messageFrames hc ⟨hv, hchannel, hmaxBody, hroom, hidle, hwin, hopen⟩,
      complete_of_cleared hidle htxid htotal hbuf, List.append_assoc]
    rfl
  · rintro b rfl hbwin hbopen hwait rfl
    exact feed_ack hchannel.symm hc hbwin hbopen hwait

/-- Settles O43: the frame is delivered at its last byte; what is not admitted changes nothing, and a whole header is
dispatched by its flags, as the row it decodes to. -/
theorem receivedFragmentRunsItsRow : Obligations.ReceivedFragmentRunsItsRow := by
  intro p s hv hwin hopen hp hdst
  obtain ⟨-, -, -, -, -, hlocal⟩ := id hv
  have hexec := exec_slpFrame_eq hv hwin hopen hp
  have hinput := deliver_of_local (s := { s with reply := none }) hlocal hdst
  refine ⟨fun hother => ?_, fun htype hsrc => ⟨fun hshort => ?_, fun i hi => ?_⟩⟩
  · rw [hexec, hinput, padpInput_of_other (by exact hother)]
  · rw [hexec, hinput, padpInput_of_short (by exact htype) (by exact hsrc) hshort]
    rfl
  · obtain ⟨flags, size, data, hbody, rfl⟩ := decodeFragment_eq_ok hi
    obtain ⟨dst, src, type, txid, body⟩ := p
    subst hbody hdst htype hsrc
    rw [hexec, exec_of_fragment hv (space_fragmentOfFlags txid flags size data)]
    exact congrArg _ ((deliver_of_channel (s := { s with reply := none }) hlocal txid flags size data).trans
      (effectOf_fragmentOfFlags (s := { s with reply := none }) hopen txid flags size data).symm)

/-- Settles O44: each outcome of a data fragment writes to the receiver and the outputs, and an acknowledgement at most
ends the send. -/
theorem senderAndReceiverIndependent : Obligations.SenderAndReceiverIndependent := by
  intro i txid s t hspace hexec
  obtain ⟨-, rfl, -⟩ := exec_eq_next hexec
  refine ⟨fun hne => effectOf_sameSender hspace hne { s with reply := none }, ?_⟩
  rintro ⟨rsv, size, data, rfl⟩
  rw [effectOf, received_ackInput]
  split_ifs
  · exact ⟨rfl, rfl, rfl, rfl⟩
  · exact ⟨rfl, rfl, rfl, rfl⟩

/-- A fragment is read by its three header bytes (R100). -/
theorem decode_fragment (txid flags hi lo : Byte) (data : Bytes) :
    decode (.fragment txid) ([flags, hi, lo] ++ data) = .ok (fragmentOfFlags txid flags (hi ++ lo) data) := rfl

/-- Settles O38: the tag bits name the row, and the rule's tests guard its outcome. -/
theorem firstFragmentOutcomes : Obligations.FirstFragmentOutcomes := by
  refine ⟨fun txid flags hi lo data htag => ?_, fun txid rsv size data s hv hopen => ?_⟩
  · obtain ⟨hfirst, hlast, hack⟩ := flags_of_tag flags true false false htag
    rw [decode_fragment, fragmentOfFlags_eq, hfirst, hlast, hack]
    rfl
  · refine (exec_of_fragment hv rfl).trans (congrArg _ ?_)
    rw [effectOf, received_of_open (by exact hopen), dataFirst_eq]
    rfl

/-- Settles O39: `FIRST` and `LAST` name the row, and the rule's tests guard the completed message. -/
theorem onlyFragmentOutcomes : Obligations.OnlyFragmentOutcomes := by
  refine ⟨fun txid flags hi lo data hkind => ?_, fun txid ack rsv size data s hv hopen => ?_⟩
  · obtain ⟨hfirst, hlast⟩ := flags_of_kind flags true true hkind
    rw [decode_fragment, fragmentOfFlags_eq, hfirst, hlast]
    rfl
  · refine (exec_of_fragment hv rfl).trans (congrArg _ ?_)
    rw [effectOf, received_of_open (by exact hopen), dataOnly_eq, complete_eq_afterMessage]
    rfl

/-- Settles O40: the tag bits name the row, and the rule's tests guard the appending. -/
theorem midFragmentOutcomes : Obligations.MidFragmentOutcomes := by
  refine ⟨fun txid flags hi lo data htag => ?_, fun txid rsv size data s hv hopen => ?_⟩
  · obtain ⟨hfirst, hlast, hack⟩ := flags_of_tag flags false false false htag
    rw [decode_fragment, fragmentOfFlags_eq, hfirst, hlast, hack]
    rfl
  · refine (exec_of_fragment hv rfl).trans (congrArg _ ?_)
    rw [effectOf, received_of_open (by exact hopen), dataMid_eq]
    rfl

/-- Settles O41: `FIRST` and `LAST` name the row, and the rule's tests guard the completed message. -/
theorem lastFragmentOutcomes : Obligations.LastFragmentOutcomes := by
  refine ⟨fun txid flags hi lo data hkind => ?_, fun txid ack rsv size data s hv hopen => ?_⟩
  · obtain ⟨hfirst, hlast⟩ := flags_of_kind flags false true hkind
    rw [decode_fragment, fragmentOfFlags_eq, hfirst, hlast]
    rfl
  · refine (exec_of_fragment hv rfl).trans (congrArg _ ?_)
    rw [effectOf, received_of_open (by exact hopen), dataLast_eq, complete_eq_afterMessage]
    rfl

/-- Settles O42: the tag bits name the row, whose effect in an open LE is the ProtocolError. -/
theorem illegalFragmentIsProtocolError : Obligations.IllegalFragmentIsProtocolError := by
  refine ⟨fun txid flags hi lo data htag => ?_, fun txid rsv size data s hv hopen => ?_⟩
  · obtain ⟨hfirst, hlast, hack⟩ := flags_of_tag flags true false true htag
    rw [decode_fragment, fragmentOfFlags_eq, hfirst, hlast, hack]
    rfl
  · refine (exec_of_fragment hv rfl).trans (congrArg _ ?_)
    rw [effectOf, received_of_open (by exact hopen)]
    rfl

end Sys2Proof

namespace Sys2Proof.Machine

/-! ### What one instruction answers (00_scope.md R10, 43_padp_send.md R193) -/

theorem txstepEnabled_iff (s : State) : s.txstepEnabled = true ↔ s.closed = false ∧ s.txState = .sending := by
  rw [State.txstepEnabled, Bool.and_eq_true, Bool.not_eq_true', beq_iff_eq]

/-- An instruction whose effect is known answers it (R10). -/
theorem exec_of_effectOf_eq (i : Instr) (hi : i ≠ .padpTxstep) {s t : State} (hv : s.cfg.Valid)
    (ht : effectOf i { s with reply := none } = t) : exec i s = .next t :=
  ht ▸ exec_of_valid hv fun h => absurd h hi

/-! ### The status byte (45_system.md R255) -/

/-- Bits 2..1 are `tx_state` and bits 7..5 are zero. -/
theorem statusByte_fields (s : State) :
    s.statusByte.extractLsb' 1 2 = txStateCode s.txState ∧ s.statusByte.extractLsb' 5 3 = 0#3 := by
  unfold State.statusByte
  generalize txStateCode s.txState = code
  generalize s.flagSyncPending = sync
  generalize s.flagRxActive = rx
  generalize s.flagClosed = closed
  revert code sync rx closed
  decide

/-! ### `CANCEL` when open (45_system.md R251) -/

/-- With a reassembly outstanding it is lost, after the end of a send. -/
theorem cancelEffect_of_assembling {s : State} (hopen : s.closed = false) (hrx : s.rxState = .assembling) :
    cancelEffect s =
      { s with closed := true, win := [], txState := .idle, rxState := .idle, rxTxid := 0x00, rxTotal := 0, rxBuf := [],
               out := s.out ++ (if s.txState = .idle then [] else [.padpTxDone .cancelled]) ++ [.padpRxErr .cancelled],
               reply := some ⟨.ok, .none⟩ } := by
  rw [cancelEffect_of_open hopen]
  simp only [if_pos hrx]

/-- With no reassembly outstanding the receiver keeps its registers. -/
theorem cancelEffect_of_not_assembling {s : State} (hopen : s.closed = false) (hrx : s.rxState ≠ .assembling) :
    cancelEffect s =
      { s with closed := true, win := [], txState := .idle,
               out := s.out ++ (if s.txState = .idle then [] else [.padpTxDone .cancelled]),
               reply := some ⟨.ok, .none⟩ } := by
  have hidle : RxState.idle = s.rxState := by
    cases h : s.rxState with
    | idle => rfl
    | assembling => exact absurd h hrx
  rw [cancelEffect_of_open hopen]
  simp only [if_neg hrx, List.append_nil, hidle]

/-! ### A closed LE (45_system.md R257) -/

theorem tickEffect_of_closed {s : State} (h : s.closed = true) : tickEffect s = s :=
  (tickEffect_eq s).trans (if_pos (.inl h))

/-- A fragment that arrives is discarded. -/
theorem effectOf_fragment_of_closed {i : Instr} {txid : Byte} (hspace : i.space = .fragment txid) {s : State}
    (h : s.closed = true) : effectOf i s = s := by
  cases i with
  | padpDataFirst | padpDataOnly | padpDataMid | padpDataLast | padpAck | padpIllegal => exact received_of_closed h _
  | _ => cases hspace

end Sys2Proof.Machine

namespace Sys2Proof

open Machine

/-! ### System operations (45_system.md R250 to R257) -/

/-- Settles O7: an empty trace leaves the step that waits for no event, which is taken where it is enabled. -/
theorem stepWithoutRecord : Obligations.StepWithoutRecord := by
  intro s hv htrace
  rw [step_of_nil htrace, idleStep, if_pos hv]
  exact if_congr (txstepEnabled_iff s) rfl rfl

/-- Settles O46: `RESET` answers its effect, in which only configuration, trace and outputs are not the reset state's. -/
theorem resetOutcome : Obligations.ResetOutcome :=
  ⟨rfl, fun _ hv => exec_of_valid hv nofun⟩

/-- Settles O47: `CANCEL` and `CLOSE` have one effect, in the three cases of the rule. -/
theorem cancelAndCloseOutcomes : Obligations.CancelAndCloseOutcomes := by
  refine ⟨rfl, rfl, fun s hv => ?_⟩
  intro sendEvents t
  have heffect : cancelEffect { s with reply := none } = t := by
    unfold t
    split_ifs with hclosed hrx
    · exact cancelEffect_of_closed (by exact hclosed)
    · exact cancelEffect_of_assembling (by exact eq_false_of_ne_true hclosed) (by exact hrx)
    · exact cancelEffect_of_not_assembling (by exact eq_false_of_ne_true hclosed) (by exact hrx)
  exact ⟨exec_of_effectOf_eq .cancel nofun hv heffect, exec_of_effectOf_eq .close nofun hv heffect⟩

/-- Settles O48: both commands answer their effects, and the byte returned has the layout of the rule. -/
theorem nopAndStatusOutcomes : Obligations.NopAndStatusOutcomes := by
  refine ⟨rfl, rfl, fun s hv => ⟨exec_of_valid hv nofun, s.statusByte, exec_of_valid hv nofun, ?_⟩⟩
  obtain ⟨hclosed, -, -, hactive, hpending⟩ := statusByte_bits s
  obtain ⟨hstate, hzero⟩ := statusByte_fields s
  exact ⟨hclosed, hstate, hactive, hpending.trans (decide_eq_decide.mpr List.length_pos_iff), hzero⟩

/-- Settles O51: the host commands answer at their test of `closed`, what arrives is discarded, a tick does nothing, and
`PADP.TXSTEP` is not enabled. -/
theorem closedTable : Obligations.ClosedTable := by
  intro s hv hclosed _
  have hc : { s with reply := none }.closed = true := hclosed
  have hcancel := cancelEffect_of_closed hc
  refine ⟨?_, fun p => exec_of_effectOf_eq (.slpTx p) nofun hv (if_pos hc),
    fun txid opts payload => exec_of_effectOf_eq (.padpSend txid opts payload) nofun hv (if_pos hc),
    fun b => exec_of_effectOf_eq (.rxByte b) nofun hv (rxByteEffect_of_closed hc b),
    exec_of_effectOf_eq .tick nofun hv (tickEffect_of_closed hc),
    exec_padpTxstep_of_not_enabled hv (by simp [State.txstepEnabled, hclosed]),
    fun p => exec_of_effectOf_eq (.slpFrame p) nofun hv (feed_of_closed hc _),
    fun i txid hspace => (exec_of_fragment hv hspace).trans (congrArg _ (effectOf_fragment_of_closed hspace hc))⟩
  rw [List.forall_mem_cons, List.forall_mem_cons, List.forall_mem_singleton]
  exact ⟨exec_of_effectOf_eq .cancel nofun hv hcancel, exec_of_effectOf_eq .close nofun hv hcancel,
    exec_of_valid hv nofun⟩

end Sys2Proof

namespace Sys2Proof.Machine

/-! ### What an instruction reports of a send (60_exceptions.md R265, R266, R273) -/

/-- An event that reports no ChecksumError (R266). -/
def ReportsNoChecksumError (e : OutEvent) : Prop := e ≠ .padpRxErr .checksum ∧ e ≠ .padpTxDone .checksum

/-- From `s` to `t`, in which `accepted` sends are accepted, the events added end exactly the sends that are outstanding no
more (R273), and none of them reports a ChecksumError. -/
def ReportsSends (accepted : Nat) (s t : State) : Prop :=
  ∃ added, t.out = s.out ++ added ∧ doneCount added + sendsOutstanding t = sendsOutstanding s + accepted ∧
    ∀ e ∈ added, ReportsNoChecksumError e

/-- How many sends an instruction that answers `t` accepts (R190). -/
def acceptedSends (i : Instr) (t : State) : Nat :=
  match i with
  | .padpSend _ _ _ => if t.reply = some ⟨.ok, .none⟩ then 1 else 0
  | _ => 0

theorem doneCount_append (out added : List OutEvent) : doneCount (out ++ added) = doneCount out + doneCount added :=
  List.countP_append

theorem sendsOutstanding_of_idle {s : State} (h : s.txState = .idle) : sendsOutstanding s = 0 := by
  rw [sendsOutstanding, h]

theorem sendsOutstanding_of_not_idle {s : State} (h : s.txState ≠ .idle) : sendsOutstanding s = 1 := by
  unfold sendsOutstanding
  cases hs : s.txState with
  | idle => exact absurd hs h
  | sending | waitAck => rfl

theorem ReportsSends.doneCount_add {n : Nat} {s t : State} (h : ReportsSends n s t) :
    doneCount t.out + sendsOutstanding t = doneCount s.out + sendsOutstanding s + n := by
  obtain ⟨added, hout, hcount, -⟩ := h
  rw [hout, doneCount_append]
  omega

theorem ReportsSends.of_out_eq {n : Nat} {s t : State} (hsends : sendsOutstanding t = sendsOutstanding s + n)
    (hout : t.out = s.out) : ReportsSends n s t :=
  ⟨[], hout.trans (List.append_nil _).symm, (Nat.zero_add _).trans hsends, List.forall_mem_nil _⟩

/-- An event that is no end of a send leaves the sends outstanding as they are. -/
theorem ReportsSends.of_out_concat {s t : State} {e : OutEvent} (hsends : sendsOutstanding t = sendsOutstanding s)
    (hout : t.out = s.out ++ [e]) (hcount : doneCount [e] = 0) (he : ReportsNoChecksumError e) : ReportsSends 0 s t :=
  ⟨[e], hout, by omega, List.forall_mem_singleton.mpr he⟩

theorem ReportsSends.trans {s t u : State} (h : ReportsSends 0 s t) (k : ReportsSends 0 t u) : ReportsSends 0 s u := by
  obtain ⟨added, hout, hcount, hadded⟩ := h
  obtain ⟨more, kout, kcount, kmore⟩ := k
  refine ⟨added ++ more, by rw [kout, hout, List.append_assoc], ?_, List.forall_mem_append.mpr ⟨hadded, kmore⟩⟩
  rw [doneCount_append]
  omega

/-! ### Each effect's reports -/

theorem slpWrite_reportsSends (s : State) (p : Packet) : ReportsSends 0 s (s.slpWrite p) :=
  .of_out_concat rfl rfl rfl ⟨nofun, nofun⟩

/-- The end of an outstanding send is reported by its one `PADP_TX_DONE`. -/
theorem endSend_reportsSends {s : State} {code : Status} (hs : s.txState ≠ .idle) (hcode : code ≠ .checksum) :
    ReportsSends 0 s (s.endSend code) := by
  refine ⟨_, rfl, ?_, List.forall_mem_singleton.mpr ⟨nofun, fun h => hcode (OutEvent.padpTxDone.inj h)⟩⟩
  rw [sendsOutstanding_of_not_idle hs]
  rfl

theorem failReceive_reportsSends (s : State) {code : Status} (hcode : code ≠ .checksum) :
    ReportsSends 0 s (s.failReceive code) :=
  .of_out_concat rfl rfl rfl ⟨fun h => hcode (OutEvent.padpRxErr.inj h), nofun⟩

theorem complete_reportsSends (txid : Byte) (ack : Bool) (payload : Bytes) (s : State) :
    ReportsSends 0 s (complete txid ack payload s) := by
  have hmessage : ReportsSends 0 s (s.clearReceive.emit (.padpRxMsg txid payload)) :=
    .of_out_concat rfl rfl rfl ⟨nofun, nofun⟩
  unfold complete
  split
  · exact hmessage.trans (slpWrite_reportsSends _ _)
  · exact hmessage

/-- A send is accepted only where none is outstanding (R190). -/
theorem padpSend_reportsSends (txid opts : Byte) (payload : Bytes) (s : State) :
    ReportsSends (acceptedSends (.padpSend txid opts payload) (effectOf (.padpSend txid opts payload) s)) s
      (effectOf (.padpSend txid opts payload) s) := by
  simp only [effectOf]
  split_ifs with hclosed hopts hbusy hlong
  · exact .of_out_eq rfl rfl
  · exact .of_out_eq rfl rfl
  · exact .of_out_eq rfl rfl
  · exact .of_out_eq rfl rfl
  · refine .of_out_eq ?_ rfl
    rw [sendsOutstanding_of_idle (not_not.mp hbusy)]
    rfl

/-- `PADP.TXSTEP` goes on with the send, waits for its acknowledgement or ends it (R193 to R195). -/
theorem txstepEffect_reportsSends {s : State} (he : s.txstepEnabled = true) : ReportsSends 0 s (txstepEffect s) := by
  obtain ⟨-, hs⟩ := (txstepEnabled_iff s).mp he
  have hbusy : s.txState ≠ .idle := by rw [hs]; decide
  have hwritten : ReportsSends 0 s s.writeFragment := slpWrite_reportsSends s _
  rw [txstepEffect_eq]
  split_ifs
  · exact hwritten.trans (.of_out_eq rfl rfl)
  · exact hwritten.trans (.of_out_eq (sendsOutstanding_of_not_idle hbusy).symm rfl)
  · exact hwritten.trans (endSend_reportsSends (s := s.writeFragment) hbusy nofun)

/-- `TICK` ends a send only where one waits for its acknowledgement (R197 to R199). -/
theorem tickEffect_reportsSends (s : State) : ReportsSends 0 s (tickEffect s) := by
  rw [tickEffect_eq]
  split_ifs with hskip
  · exact .of_out_eq rfl rfl
  · exact .of_out_eq rfl rfl
  · exact (slpWrite_reportsSends s _).trans (.of_out_eq rfl rfl)
  · obtain ⟨-, hwait⟩ := not_or.mp hskip
    have hbusy : s.txState ≠ .idle := by rw [not_not.mp hwait]; decide
    exact endSend_reportsSends (s := { s with txTimer := s.txTimer - 1 }) hbusy nofun

theorem cancelSend_reportsSends (s : State) : ReportsSends 0 s (cancelSend s) := by
  unfold cancelSend
  split_ifs with hbusy
  · exact endSend_reportsSends hbusy nofun
  · exact .of_out_eq rfl rfl

theorem cancelReceive_reportsSends (s : State) : ReportsSends 0 s (cancelReceive s) := by
  unfold cancelReceive
  split_ifs
  · exact failReceive_reportsSends s nofun
  · exact .of_out_eq rfl rfl

theorem cancelEffect_reportsSends (s : State) : ReportsSends 0 s (cancelEffect s) := by
  have hended := (cancelSend_reportsSends { s with closed := true, win := [] }).trans (cancelReceive_reportsSends _)
  unfold cancelEffect
  split_ifs
  · exact .of_out_eq rfl rfl
  · exact hended.trans (.of_out_eq rfl rfl)

/-- Of all that a delivered packet may do, only an acknowledgement ends a send, one that waits for it (R196). -/
theorem Delivered.reportsSends {s t : State} (h : Delivered s t) : ReportsSends 0 s t := by
  cases h with
  | ignored | opened | extended => exact .of_out_eq rfl rfl
  | outside => exact .of_out_concat rfl rfl rfl ⟨nofun, nofun⟩
  | acked hwait => exact endSend_reportsSends (by rw [hwait]; decide) nofun
  | failed => exact failReceive_reportsSends s nofun
  | completed txid ack payload => exact complete_reportsSends txid ack payload s

theorem received_reportsSends {s : State} {f : State → State} (h : Delivered s (f s)) :
    ReportsSends 0 s (s.received f) := by
  unfold State.received
  split
  · exact .of_out_eq rfl rfl
  · exact h.reportsSends

theorem scan_reportsSends (s : State) : ReportsSends 0 s (scan s) :=
  scan_keeps (P := ReportsSends 0 s) (fun _ _ h => h.trans (.of_out_eq rfl rfl))
    (fun t p h => h.trans (deliver_cases p t).reportsSends) s (.of_out_eq rfl rfl)

theorem rxByteEffect_reportsSends (b : Byte) (s : State) : ReportsSends 0 s (rxByteEffect b s) := by
  rcases Bool.eq_false_or_eq_true s.closed with hc | ho
  · rw [rxByteEffect_of_closed hc]
    exact .of_out_eq rfl rfl
  · rw [rxByteEffect_of_open ho]
    exact scan_reportsSends { s with win := s.win ++ [b] }

theorem feed_reportsSends (bs : Bytes) (s : State) : ReportsSends 0 s (feed bs s) :=
  feed_keeps (P := ReportsSends 0 s) (fun t b h => h.trans (rxByteEffect_reportsSends b t)) bs s (.of_out_eq rfl rfl)

/-- Every instruction's reports, one case a row of the opcode table. `RESET` alone drops an outstanding send without a
report (R273). -/
theorem effectOf_reportsSends {i : Instr} (hi : i ≠ .reset) {s : State} (he : i = .padpTxstep → s.txstepEnabled = true) :
    ReportsSends (acceptedSends i (effectOf i s)) s (effectOf i s) := by
  cases i with
  | nop | crcClr | crcUpd | crcRd | crcChk | status | reserved => exact .of_out_eq rfl rfl
  | slpTx p =>
    simp only [effectOf]
    split_ifs
    · exact .of_out_eq rfl rfl
    · exact .of_out_eq rfl rfl
    · exact slpWrite_reportsSends s p
  | padpSend txid opts payload => exact padpSend_reportsSends txid opts payload s
  | tick => exact tickEffect_reportsSends s
  | padpTxstep => exact txstepEffect_reportsSends (he rfl)
  | cancel | close => exact cancelEffect_reportsSends s
  | reset => exact absurd rfl hi
  | rxByte b => exact rxByteEffect_reportsSends b s
  | slpFrame p => exact feed_reportsSends (slpEncode p) s
  | padpDataFirst txid _ size data => exact received_reportsSends (dataFirst_cases txid size.toNat data s)
  | padpDataOnly txid ack _ size data => exact received_reportsSends (dataOnly_cases txid ack size.toNat data s)
  | padpDataMid txid _ size data => exact received_reportsSends (dataMid_cases txid size.toNat data s)
  | padpDataLast txid ack _ size data => exact received_reportsSends (dataLast_cases txid ack size.toNat data s)
  | padpAck txid => exact received_reportsSends (ackInput_cases txid s)
  | padpIllegal => exact received_reportsSends Delivered.failed

theorem exec_reportsSends {i : Instr} {s t : State} (h : exec i s = .next t) (hi : i ≠ .reset) :
    ReportsSends (acceptedSends i t) s t := by
  obtain ⟨-, rfl, he⟩ := exec_eq_next h
  exact effectOf_reportsSends (s := { s with reply := none }) hi he

/-- What any instruction adds to the outputs, `RESET` included, which adds nothing (R302). -/
theorem exec_out_reportsNoChecksumError {i : Instr} {s t : State} (h : exec i s = .next t) :
    ∃ added, t.out = s.out ++ added ∧ ∀ e ∈ added, ReportsNoChecksumError e := by
  by_cases hi : i = .reset
  · subst hi
    obtain ⟨-, rfl, -⟩ := exec_eq_next h
    exact ⟨[], (List.append_nil _).symm, List.forall_mem_nil _⟩
  · obtain ⟨added, hout, -, hsilent⟩ := exec_reportsSends h hi
    exact ⟨added, hout, hsilent⟩

/-! ### Return values (60_exceptions.md R265, R270) -/

/-- What an instruction on `s` may answer. -/
inductive Answered (s : State) : State → Prop where
  /-- No return value: the instruction is no host command, or is `RESET`. -/
  | silent {t : State} (h : t.reply = none) : Answered s t
  /-- The command was carried out. -/
  | done {t : State} (d : ReplyData) (h : t.reply = some ⟨.ok, d⟩) : Answered s t
  /-- The command was turned down (R270). -/
  | rejected (st : Status) (h : st = .busy ∨ st = .closed ∨ st = .refused) : Answered s (s.answer st)

theorem cancelEffect_reply (s : State) : (cancelEffect s).reply = some ⟨.ok, .none⟩ := by
  unfold cancelEffect
  split <;> rfl

theorem tickEffect_reply (s : State) : (tickEffect s).reply = s.reply := by
  rw [tickEffect_eq]
  split_ifs <;> rfl

theorem txstepEffect_reply (s : State) : (txstepEffect s).reply = s.reply := by
  rw [txstepEffect_eq]
  split_ifs <;> rfl

/-- Every instruction's answer, one case a row of the opcode table. -/
theorem effectOf_answered (i : Instr) (s : State) : Answered s (effectOf i { s with reply := none }) := by
  cases i with
  | nop | crcClr | crcUpd | crcRd | crcChk | status => exact .done _ rfl
  | reserved => exact .rejected .refused (.inr (.inr rfl))
  | slpTx p =>
    simp only [effectOf]
    split_ifs
    · exact .rejected .closed (.inr (.inl rfl))
    · exact .rejected .refused (.inr (.inr rfl))
    · exact .done _ rfl
  | padpSend txid opts payload =>
    simp only [effectOf]
    split_ifs
    · exact .rejected .closed (.inr (.inl rfl))
    · exact .rejected .refused (.inr (.inr rfl))
    · exact .rejected .busy (.inl rfl)
    · exact .rejected .refused (.inr (.inr rfl))
    · exact .done _ rfl
  | cancel | close => exact .done _ (cancelEffect_reply _)
  | tick => exact .silent (tickEffect_reply _)
  | padpTxstep => exact .silent (txstepEffect_reply _)
  | reset => exact .silent rfl
  | rxByte b => exact .silent (rxByteEffect_frame b _).reply
  | slpFrame p => exact .silent (feed_frame (slpEncode p) _).reply
  | padpDataFirst txid _ size data => exact .silent (received_frame (dataFirst_cases txid size.toNat data _)).reply
  | padpDataOnly txid ack _ size data => exact .silent (received_frame (dataOnly_cases txid ack size.toNat data _)).reply
  | padpDataMid txid _ size data => exact .silent (received_frame (dataMid_cases txid size.toNat data _)).reply
  | padpDataLast txid ack _ size data => exact .silent (received_frame (dataLast_cases txid ack size.toNat data _)).reply
  | padpAck txid => exact .silent (received_frame (ackInput_cases txid _)).reply
  | padpIllegal => exact .silent (received_frame Delivered.failed).reply

theorem exec_answered {i : Instr} {s t : State} (h : exec i s = .next t) : Answered s t := by
  obtain ⟨-, rfl, -⟩ := exec_eq_next h
  exact effectOf_answered i s

/-- A return value is `OK`, or one of a rejection, which is then all that changed. -/
theorem Answered.ok_or_rejected {s t : State} {st : Status} {d : ReplyData} (h : Answered s t)
    (hr : t.reply = some ⟨st, d⟩) :
    st = .ok ∨ ((st = .busy ∨ st = .closed ∨ st = .refused) ∧ t = { s with reply := some ⟨st, d⟩ }) := by
  cases h with
  | silent hnone => cases hnone.symm.trans hr
  | done _ hok => cases hok.symm.trans hr; exact .inl rfl
  | rejected _ hst => cases hr; exact .inr ⟨hst, rfl⟩

end Sys2Proof.Machine

namespace Sys2Proof

open Machine

/-! ### Errors and return values (60_exceptions.md R265 to R273) -/

/-- Settles O56: the events an instruction adds end exactly the sends that are outstanding no more. -/
theorem oneTxDonePerAcceptedSend : Obligations.OneTxDonePerAcceptedSend :=
  fun _ _ _ h hi => (exec_reportsSends h hi).doneCount_add

/-- Settles O57: a return value other than `OK` is that of a rejection. -/
theorem rejectionChangesNothing : Obligations.RejectionChangesNothing := by
  intro i s t st d h hreply hst
  rcases (exec_answered h).ok_or_rejected hreply with rfl | ⟨-, ht⟩
  · simp at hst
  · exact ht

/-- Settles O58: no effect emits an event with code 1, and the return values are those of `Answered`. -/
theorem checksumErrorIsSilent : Obligations.ChecksumErrorIsSilent := by
  intro i s t added h hadded
  obtain ⟨added', hout, hsilent⟩ := exec_out_reportsNoChecksumError h
  obtain rfl : added = added' := List.append_cancel_left (hadded.symm.trans hout)
  exact ⟨hsilent, fun st d hreply => ((exec_answered h).ok_or_rejected hreply).imp_right And.left⟩

end Sys2Proof
